-- ==== Sys2Proof/Word.lean ====
section
/-! DEFINITION. The words of the machine (spec/10_state.md R10, spec/30_encoding.md R61): names for the widths the spec gives. -/

namespace Sys2Proof

/-- A byte: one memory cell, one general register, one timer, the immediate `kk` (R10, R61). -/
abbrev Byte := BitVec 8

/-- A 16-bit word: an opcode, `pc`, `I`, a stack entry, the key input (R10, R60). -/
abbrev Word := BitVec 16

/-- The 12-bit address operand `nnn` (R61). -/
abbrev Addr := BitVec 12

/-- A 4-bit field of an opcode (R61). -/
abbrev Nibble := BitVec 4

/-- The index of a general register, V0 to VF: every value of the field names a register (R11). -/
abbrev Reg := BitVec 4

/-- Register VF, which is also the flag (R12). -/
abbrev VF : Reg := 0xF#4

end Sys2Proof
end

