-- ==== Sys2Proof/Syntax.lean ====
section
/-! DEFINITION. The instructions: one constructor for each row of spec/opcode_table.json (spec/30_encoding.md R64, R66), in the table's order. -/

namespace Sys2Proof

/-- The instruction set. `x`, `y` are register fields, `kk` an immediate byte, `nnn` an address, `n` a row count (R61, R63). -/
inductive Instr where
  /-- `00E0`, CLS (R152). -/
  | cls
  /-- `00EE`, RET (R100). -/
  | ret
  /-- `1nnn`, JP nnn (R101). -/
  | jp (nnn : Addr)
  /-- `2nnn`, CALL nnn (R102). -/
  | call (nnn : Addr)
  /-- `3xkk`, SE Vx, kk (R104). -/
  | seImm (x : Reg) (kk : Byte)
  /-- `4xkk`, SNE Vx, kk (R105). -/
  | sneImm (x : Reg) (kk : Byte)
  /-- `5xy0`, SE Vx, Vy (R106). -/
  | seReg (x y : Reg)
  /-- `6xkk`, LD Vx, kk (R121). -/
  | ldImm (x : Reg) (kk : Byte)
  /-- `7xkk`, ADD Vx, kk (R122). -/
  | addImm (x : Reg) (kk : Byte)
  /-- `8xy0`, LD Vx, Vy (R123). -/
  | ldReg (x y : Reg)
  /-- `8xy1`, OR Vx, Vy (R124). -/
  | orReg (x y : Reg)
  /-- `8xy2`, AND Vx, Vy (R125). -/
  | andReg (x y : Reg)
  /-- `8xy3`, XOR Vx, Vy (R126). -/
  | xorReg (x y : Reg)
  /-- `8xy4`, ADD Vx, Vy (R127). -/
  | addReg (x y : Reg)
  /-- `8xy5`, SUB Vx, Vy (R128). -/
  | subReg (x y : Reg)
  /-- `8xy6`, SHR Vx; the field `y` is kept and ignored (R129, R65). -/
  | shr (x y : Reg)
  /-- `8xy7`, SUBN Vx, Vy (R130). -/
  | subnReg (x y : Reg)
  /-- `8xyE`, SHL Vx; the field `y` is kept and ignored (R132, R65). -/
  | shl (x y : Reg)
  /-- `9xy0`, SNE Vx, Vy (R107). -/
  | sneReg (x y : Reg)
  /-- `Annn`, LD I, nnn (R140). -/
  | ldI (nnn : Addr)
  /-- `Bnnn`, JP V0, nnn (R103). -/
  | jpV0 (nnn : Addr)
  /-- `Cxkk`, RND Vx, kk (R131). -/
  | rnd (x : Reg) (kk : Byte)
  /-- `Dxyn`, DRW Vx, Vy, n (R153). -/
  | drw (x y : Reg) (n : Nibble)
  /-- `Ex9E`, SKP Vx (R160). -/
  | skp (x : Reg)
  /-- `ExA1`, SKNP Vx (R161). -/
  | sknp (x : Reg)
  /-- `Fx07`, LD Vx, DT (R163). -/
  | ldVxDt (x : Reg)
  /-- `Fx0A`, LD Vx, K (R162). -/
  | ldVxK (x : Reg)
  /-- `Fx15`, LD DT, Vx (R164). -/
  | ldDtVx (x : Reg)
  /-- `Fx18`, LD ST, Vx (R165). -/
  | ldStVx (x : Reg)
  /-- `Fx1E`, ADD I, Vx (R141). -/
  | addI (x : Reg)
  /-- `Fx29`, LD F, Vx (R142). -/
  | ldF (x : Reg)
  /-- `Fx33`, LD B, Vx (R143). -/
  | ldB (x : Reg)
  /-- `Fx55`, LD [I], Vx (R144). -/
  | ldMemVx (x : Reg)
  /-- `Fx65`, LD Vx, [I] (R145). -/
  | ldVxMem (x : Reg)
  /-- The last row, NOP: an opcode that matches no earlier row, `0nnn` (SYS nnn) among them; all its bits are kept (R66, R67, R90). -/
  | nop (op : Word)
  deriving DecidableEq, Repr

end Sys2Proof
end

