-- ==== Sys2Proof/WellFormed.lean ====
section
/-! DEFINITION. Which instruction terms stand for an opcode. Every operand is held in a type of exactly its field's values (spec/30_encoding.md R63), so the one
check left is that the word of a no-op matches no row of the table (R66). -/

namespace Sys2Proof

/-- The minor codes `op[3:0]` of `8xy_` that no row has (R66 (c)). -/
def unusedMinor8 : List Nibble := [0x8, 0x9, 0xA, 0xB, 0xC, 0xD, 0xF]

/-- The low bytes of the rows with leading nibble `E` (R66 (e)). -/
def lowBytesE : List Byte := [0x9E, 0xA1]

/-- The low bytes of the rows with leading nibble `F` (R66 (f)). -/
def lowBytesF : List Byte := [0x07, 0x0A, 0x15, 0x18, 0x1E, 0x29, 0x33, 0x55, 0x65]

/-- The opcodes that match no row, by the list (a) to (f) of R66. -/
def isUnmatched (op : Word) : Bool :=
  let major := op.extractLsb' 12 4
  let minor := op.extractLsb' 0 4
  let low := op.extractLsb' 0 8
  (major == 0x0#4 && op != 0x00E0#16 && op != 0x00EE#16)
  || (major == 0x5#4 && minor != 0x0#4)
  || (major == 0x8#4 && unusedMinor8.contains minor)
  || (major == 0x9#4 && minor != 0x0#4)
  || (major == 0xE#4 && !lowBytesE.contains low)
  || (major == 0xF#4 && !lowBytesF.contains low)

/-- An instruction is well formed when some opcode stands for it: always, but for a no-op whose word belongs to another row (R64 to R66). -/
def Instr.wellFormed : Instr → Bool
  | .cls => true
  | .ret => true
  | .jp _ => true
  | .call _ => true
  | .seImm _ _ => true
  | .sneImm _ _ => true
  | .seReg _ _ => true
  | .ldImm _ _ => true
  | .addImm _ _ => true
  | .ldReg _ _ => true
  | .orReg _ _ => true
  | .andReg _ _ => true
  | .xorReg _ _ => true
  | .addReg _ _ => true
  | .subReg _ _ => true
  | .shr _ _ => true
  | .subnReg _ _ => true
  | .shl _ _ => true
  | .sneReg _ _ => true
  | .ldI _ => true
  | .jpV0 _ => true
  | .rnd _ _ => true
  | .drw _ _ _ => true
  | .skp _ => true
  | .sknp _ => true
  | .ldVxDt _ => true
  | .ldVxK _ => true
  | .ldDtVx _ => true
  | .ldStVx _ => true
  | .addI _ => true
  | .ldF _ => true
  | .ldB _ => true
  | .ldMemVx _ => true
  | .ldVxMem _ => true
  | .nop op => isUnmatched op

end Sys2Proof
end

