-- ==== Sys2Proof/Decode.lean ====
section
/-! DEFINITION. From opcodes to instructions and back (spec/30_encoding.md R60 to R67): fields, the decoder of one opcode, the decoder of bytes, the encoder,
and the rows of the opcode table as data. -/

namespace Sys2Proof

/-! ## Fields (R61) -/

/-- `n0 = op[15:12]`, the major opcode. -/
def fieldMajor (op : Word) : Nibble := op.extractLsb' 12 4

/-- `x = op[11:8]`. -/
def fieldX (op : Word) : Reg := op.extractLsb' 8 4

/-- `y = op[7:4]`. -/
def fieldY (op : Word) : Reg := op.extractLsb' 4 4

/-- `n = op[3:0]`, the row count or the minor opcode. -/
def fieldN (op : Word) : Nibble := op.extractLsb' 0 4

/-- `kk = op[7:0]`. -/
def fieldKk (op : Word) : Byte := op.extractLsb' 0 8

/-- `nnn = op[11:0]`. -/
def fieldNnn (op : Word) : Addr := op.extractLsb' 0 12

/-! ## Byte order (R45, R60) -/

/-- The opcode whose first byte is `hi` and whose second byte is `lo`. -/
def opcodeOfBytes (hi lo : Byte) : Word := hi ++ lo

/-- The two bytes of an opcode, the one at the lower address first. -/
def bytesOfOpcode (op : Word) : List Byte := [op.extractLsb' 8 8, op.extractLsb' 0 8]

/-! ## The decoder (R64 to R66) -/

/-- The rows with leading nibble `0`. -/
def decode0 (op : Word) : Instr :=
  if op = 0x00E0#16 then .cls else if op = 0x00EE#16 then .ret else .nop op

/-- The rows with leading nibble `8`, told apart by the minor code `op[3:0]`. -/
def decode8 (op : Word) : Instr :=
  let x := fieldX op
  let y := fieldY op
  match fieldN op with
  | 0x0#4 => .ldReg x y
  | 0x1#4 => .orReg x y
  | 0x2#4 => .andReg x y
  | 0x3#4 => .xorReg x y
  | 0x4#4 => .addReg x y
  | 0x5#4 => .subReg x y
  | 0x6#4 => .shr x y
  | 0x7#4 => .subnReg x y
  | 0xE#4 => .shl x y
  | _ => .nop op

/-- The rows with leading nibble `E`, told apart by the low byte. -/
def decodeE (op : Word) : Instr :=
  match fieldKk op with
  | 0x9E#8 => .skp (fieldX op)
  | 0xA1#8 => .sknp (fieldX op)
  | _ => .nop op

/-- The rows with leading nibble `F`, told apart by the low byte. -/
def decodeF (op : Word) : Instr :=
  let x := fieldX op
  match fieldKk op with
  | 0x07#8 => .ldVxDt x
  | 0x0A#8 => .ldVxK x
  | 0x15#8 => .ldDtVx x
  | 0x18#8 => .ldStVx x
  | 0x1E#8 => .addI x
  | 0x29#8 => .ldF x
  | 0x33#8 => .ldB x
  | 0x55#8 => .ldMemVx x
  | 0x65#8 => .ldVxMem x
  | _ => .nop op

/-- The instruction of an opcode: total, and a function of the opcode alone (R65). -/
def decode (op : Word) : Instr :=
  match fieldMajor op with
  | 0x0#4 => decode0 op
  | 0x1#4 => .jp (fieldNnn op)
  | 0x2#4 => .call (fieldNnn op)
  | 0x3#4 => .seImm (fieldX op) (fieldKk op)
  | 0x4#4 => .sneImm (fieldX op) (fieldKk op)
  | 0x5#4 => if fieldN op = 0x0#4 then .seReg (fieldX op) (fieldY op) else .nop op
  | 0x6#4 => .ldImm (fieldX op) (fieldKk op)
  | 0x7#4 => .addImm (fieldX op) (fieldKk op)
  | 0x8#4 => decode8 op
  | 0x9#4 => if fieldN op = 0x0#4 then .sneReg (fieldX op) (fieldY op) else .nop op
  | 0xA#4 => .ldI (fieldNnn op)
  | 0xB#4 => .jpV0 (fieldNnn op)
  | 0xC#4 => .rnd (fieldX op) (fieldKk op)
  | 0xD#4 => .drw (fieldX op) (fieldY op) (fieldN op)
  | 0xE#4 => decodeE op
  | 0xF#4 => decodeF op
  | _ => .nop op

/-- Why bytes do not decode. No opcode is illegal (R66), so the one reason is a missing byte. -/
inductive DecodeError where
  /-- Fewer than the two bytes of an opcode (R60). Raised by `decodeBytes`, never by a step, which fetches both bytes or halts (R85): safe. -/
  | truncated
  deriving DecidableEq, Repr

/-- The first instruction of a byte sequence and the bytes after it (R60, R68). -/
def decodeBytes : List Byte → Except DecodeError (Instr × List Byte)
  | hi :: lo :: rest => .ok (decode (opcodeOfBytes hi lo), rest)
  | [_] => .error .truncated
  | [] => .error .truncated

/-- The instruction decoded from the table word `w` of `nbits` bits: the word laid out as memory holds it, high byte first, and decoded. -/
def decodeTableWord (nbits w : Nat) : Option Instr :=
  match decodeBytes (bytesOfOpcode (BitVec.ofNat 16 (w % 2 ^ nbits))) with
  | .ok (i, _) => some i
  | .error _ => none

/-! ## The encoder (R62, R64) -/

/-- Format NNN: the major opcode and the address. -/
def packNnn (major : Nibble) (nnn : Addr) : Word := major ++ nnn

/-- Formats XKK and X: the major opcode, the register, the low byte. -/
def packXkk (major x : Nibble) (kk : Byte) : Word := major ++ x ++ kk

/-- Formats XY and XYN: the major opcode, the two registers, the low nibble. -/
def packXyn (major x y n : Nibble) : Word := major ++ x ++ y ++ n

/-- The opcode of an instruction, each row's fixed nibbles and its fields in the places of its format (R62). -/
def encode : Instr → Word
  | .cls => 0x00E0#16
  | .ret => 0x00EE#16
  | .jp nnn => packNnn 0x1 nnn
  | .call nnn => packNnn 0x2 nnn
  | .seImm x kk => packXkk 0x3 x kk
  | .sneImm x kk => packXkk 0x4 x kk
  | .seReg x y => packXyn 0x5 x y 0x0
  | .ldImm x kk => packXkk 0x6 x kk
  | .addImm x kk => packXkk 0x7 x kk
  | .ldReg x y => packXyn 0x8 x y 0x0
  | .orReg x y => packXyn 0x8 x y 0x1
  | .andReg x y => packXyn 0x8 x y 0x2
  | .xorReg x y => packXyn 0x8 x y 0x3
  | .addReg x y => packXyn 0x8 x y 0x4
  | .subReg x y => packXyn 0x8 x y 0x5
  | .shr x y => packXyn 0x8 x y 0x6
  | .subnReg x y => packXyn 0x8 x y 0x7
  | .shl x y => packXyn 0x8 x y 0xE
  | .sneReg x y => packXyn 0x9 x y 0x0
  | .ldI nnn => packNnn 0xA nnn
  | .jpV0 nnn => packNnn 0xB nnn
  | .rnd x kk => packXkk 0xC x kk
  | .drw x y n => packXyn 0xD x y n
  | .skp x => packXkk 0xE x 0x9E
  | .sknp x => packXkk 0xE x 0xA1
  | .ldVxDt x => packXkk 0xF x 0x07
  | .ldVxK x => packXkk 0xF x 0x0A
  | .ldDtVx x => packXkk 0xF x 0x15
  | .ldStVx x => packXkk 0xF x 0x18
  | .addI x => packXkk 0xF x 0x1E
  | .ldF x => packXkk 0xF x 0x29
  | .ldB x => packXkk 0xF x 0x33
  | .ldMemVx x => packXkk 0xF x 0x55
  | .ldVxMem x => packXkk 0xF x 0x65
  | .nop op => op

/-! ## The opcode table as data (R64, R65) -/

/-- One row of the opcode table: it is selected by the opcodes with `op & mask = match`. -/
structure OpcodeRow where
  /-- The bits the row looks at. -/
  mask : Word
  /-- The value those bits must have. -/
  value : Word
  deriving DecidableEq, Repr

/-- Whether an opcode selects a row. -/
def OpcodeRow.selects (r : OpcodeRow) (op : Word) : Bool := (op &&& r.mask) == r.value

/-- The table's rows `00E0` to `5xy0`. -/
def opcodeRowsFlow : List OpcodeRow :=
  [⟨0xFFFF#16, 0x00E0#16⟩,
   ⟨0xFFFF#16, 0x00EE#16⟩,
   ⟨0xF000#16, 0x1000#16⟩,
   ⟨0xF000#16, 0x2000#16⟩,
   ⟨0xF000#16, 0x3000#16⟩,
   ⟨0xF000#16, 0x4000#16⟩,
   ⟨0xF00F#16, 0x5000#16⟩]

/-- The table's rows `6xkk` to `8xyE`. -/
def opcodeRowsAlu : List OpcodeRow :=
  [⟨0xF000#16, 0x6000#16⟩,
   ⟨0xF000#16, 0x7000#16⟩,
   ⟨0xF00F#16, 0x8000#16⟩,
   ⟨0xF00F#16, 0x8001#16⟩,
   ⟨0xF00F#16, 0x8002#16⟩,
   ⟨0xF00F#16, 0x8003#16⟩,
   ⟨0xF00F#16, 0x8004#16⟩,
   ⟨0xF00F#16, 0x8005#16⟩,
   ⟨0xF00F#16, 0x8006#16⟩,
   ⟨0xF00F#16, 0x8007#16⟩,
   ⟨0xF00F#16, 0x800E#16⟩]

/-- The table's rows `9xy0` to `Dxyn`. -/
def opcodeRowsIndex : List OpcodeRow :=
  [⟨0xF00F#16, 0x9000#16⟩,
   ⟨0xF000#16, 0xA000#16⟩,
   ⟨0xF000#16, 0xB000#16⟩,
   ⟨0xF000#16, 0xC000#16⟩,
   ⟨0xF000#16, 0xD000#16⟩]

/-- The table's rows `Ex9E` to `Fx65`. -/
def opcodeRowsMisc : List OpcodeRow :=
  [⟨0xF0FF#16, 0xE09E#16⟩,
   ⟨0xF0FF#16, 0xE0A1#16⟩,
   ⟨0xF0FF#16, 0xF007#16⟩,
   ⟨0xF0FF#16, 0xF00A#16⟩,
   ⟨0xF0FF#16, 0xF015#16⟩,
   ⟨0xF0FF#16, 0xF018#16⟩,
   ⟨0xF0FF#16, 0xF01E#16⟩,
   ⟨0xF0FF#16, 0xF029#16⟩,
   ⟨0xF0FF#16, 0xF033#16⟩,
   ⟨0xF0FF#16, 0xF055#16⟩,
   ⟨0xF0FF#16, 0xF065#16⟩]

/-- The table's last row, which every opcode matches. -/
def opcodeRowsLast : List OpcodeRow :=
  [⟨0x0000#16, 0x0000#16⟩]

/-- The 35 rows in the order of spec/opcode_table.json; an opcode belongs to the first row it selects (R65). -/
def opcodeRows : List OpcodeRow :=
  opcodeRowsFlow ++ opcodeRowsAlu ++ opcodeRowsIndex ++ opcodeRowsMisc ++ opcodeRowsLast

/-- The position of an instruction's row in `opcodeRows`. -/
def Instr.row : Instr → Nat
  | .cls => 0
  | .ret => 1
  | .jp _ => 2
  | .call _ => 3
  | .seImm _ _ => 4
  | .sneImm _ _ => 5
  | .seReg _ _ => 6
  | .ldImm _ _ => 7
  | .addImm _ _ => 8
  | .ldReg _ _ => 9
  | .orReg _ _ => 10
  | .andReg _ _ => 11
  | .xorReg _ _ => 12
  | .addReg _ _ => 13
  | .subReg _ _ => 14
  | .shr _ _ => 15
  | .subnReg _ _ => 16
  | .shl _ _ => 17
  | .sneReg _ _ => 18
  | .ldI _ => 19
  | .jpV0 _ => 20
  | .rnd _ _ => 21
  | .drw _ _ _ => 22
  | .skp _ => 23
  | .sknp _ => 24
  | .ldVxDt _ => 25
  | .ldVxK _ => 26
  | .ldDtVx _ => 27
  | .ldStVx _ => 28
  | .addI _ => 29
  | .ldF _ => 30
  | .ldB _ => 31
  | .ldMemVx _ => 32
  | .ldVxMem _ => 33
  | .nop _ => 34

end Sys2Proof
end

