-- ==== Sys2Proof/Config.lean ====
section
/-! DEFINITION. The parameters of spec/00_scope.md R4 and the free inputs of spec/40_cycle.md R80.
The bytes of `FONT_ROM` stand beside the memory that holds them, in Machine/Memory.lean. -/

namespace Sys2Proof.Config

/-- `MEM_SIZE`: addresses 0 to 4095 (R4, R40). -/
@[simp] abbrev memSize : Nat := 4096

/-- `GLYPH_BYTES`: bytes of one font glyph (R4, R142). -/
@[simp] abbrev glyphBytes : Nat := 5

/-- `PROGRAM_BASE`: where a program is loaded and where `pc` starts (R4, R26, R51). -/
@[simp] abbrev programBase : Nat := 0x200

/-- `PROGRAM_MAX`: the longest program, `4096 - 0x200` bytes (R4, R51). -/
@[simp] abbrev programMax : Nat := memSize - programBase

/-- `FB_WIDTH`: columns of the frame buffer (R4, R21). -/
@[simp] abbrev fbWidth : Nat := 64

/-- `FB_HEIGHT`: rows of the frame buffer (R4, R21). -/
@[simp] abbrev fbHeight : Nat := 32

/-- `SPRITE_WIDTH`: pixels of one sprite row (R4, R151). -/
@[simp] abbrev spriteWidth : Nat := 8

/-- `STACK_DEPTH`: entries of the call stack (R4, R19). -/
@[simp] abbrev stackDepth : Nat := 16

/-- `NUM_KEYS`: keys of the keypad (R4, R80). -/
@[simp] abbrev numKeys : Nat := 16

/-- `OPCODE_BYTES`: bytes of one opcode (R4, R60). -/
@[simp] abbrev opcodeBytes : Nat := 2

/-- The value of memory outside the font table after reset (R27, R200; log 4). -/
@[simp] abbrev memFill : Byte := 0

/-- FREE VALUE: the `keys` input of the cycle numbered by the argument, where the host has supplied none (R80; log 1). -/
opaque freeKeys : Nat → Word

/-- FREE VALUE: the `rnd` input of the cycle numbered by the argument, where the host has supplied none (R80, R131; log 1). -/
opaque freeRnd : Nat → Byte

end Sys2Proof.Config
end

