-- ==== Sys2Proof/Machine/State.lean ====
section
/-! DEFINITION. The state of the engine: every element of spec/10_state.md R10, the model's own fields for the host's side of a cycle, the state after reset (R27),
and the reasons a step could stop. -/

namespace Sys2Proof.Machine

/-- Main memory `mem[0..4095]` (R10, R40), as the cells that differ from their reset contents, addresses rising (the form is `Memory.wf`, Machine/Memory.lean). -/
abbrev Memory := List Host.Cell

/-- The frame buffer `fb[y][x]` (R21): row `y`, and bit `x` of the row is the pixel in column `x`. -/
abbrev FrameBuffer := Vector (BitVec 64) 32

/-- What the host supplies to one cycle (R80). -/
structure CycleInput where
  /-- `keys`: bit `k` is 1 iff key `k` is pressed. -/
  keys : Word
  /-- `rnd`: the random byte. -/
  rnd : Byte
  deriving DecidableEq, Repr

/-- The causes of R170; their codes are `FaultCause.code` (Machine/Ops.lean). -/
inductive FaultCause where
  /-- Code 0: no fatal condition has arisen. -/
  | none
  /-- Code 1: a fetch with `pc + 1 > 4095` (R171). -/
  | fetchOutOfBounds
  /-- Code 2: `2nnn` with 16 entries on the stack (R172). -/
  | stackOverflow
  /-- Code 3: `00EE` with an empty stack (R173). -/
  | stackUnderflow
  /-- Code 4: `Dxyn`, `Fx33`, `Fx55`, `Fx65` with a highest address above 4095 (R174). -/
  | memoryOutOfBounds
  /-- Code 5: `Ex9E`, `ExA1` with `V[x] > 15` (R175). -/
  | keyIndexOutOfRange
  deriving DecidableEq, Repr

/-- The reasons a step of the model ends in a fault: NONE. Every fatal condition of the spec takes the machine to its Halted state (R180), which is a next
state with `halted` set, and a Halted cycle has an effect of its own (R82); log 5. -/
inductive Fault where
  deriving DecidableEq, Repr

/-- The reasons the model refuses an instruction. -/
inductive Refusal where
  /-- The instruction of this mnemonic has no meaning in the model. Raised by an arm of `exec` only, and by none of them now: safe. -/
  | notModelled (mnemonic : String)
  deriving DecidableEq, Repr

/-- The state of the engine. Down to `faultOpcode` the fields are the elements of R10 under the spec's names; the last four are the model's own. -/
structure State where
  /-- `mem[0..4095]` (R40). -/
  mem : Memory
  /-- `V[0..15]`, VF among them (R11, R12). -/
  V : Vector Byte 16
  /-- The index register (R18). -/
  I : Word
  /-- The program counter (R13). -/
  pc : Word
  /-- `stack[0..15]`, the return addresses (R19). -/
  stack : Vector Word 16
  /-- The number of stack entries in use, 0 to 16 (R19). -/
  sp : Fin 17
  /-- The delay timer (R17). -/
  DT : Byte
  /-- The sound timer (R17). -/
  ST : Byte
  /-- The frame buffer (R21). -/
  fb : FrameBuffer
  /-- Input-wait state: a key is being waited for (R22). -/
  waiting : Bool
  /-- Input-wait state: the register that takes the key (R22). -/
  waitReg : Reg
  /-- The key snapshot of the current cycle (R22, R83). -/
  keypad : Word
  /-- The frame buffer was written in the current cycle (R83). -/
  dirty : Bool
  /-- A fatal condition has arisen (R180). -/
  halted : Bool
  /-- Which one (R170). -/
  faultCause : FaultCause
  /-- The address of the faulting instruction (R180). -/
  faultPc : Word
  /-- The faulting opcode, 0 for a fetch (R180). -/
  faultOpcode : Word
  /-- MODEL'S OWN: the `rnd` input of the current cycle (R80; log 2). -/
  rnd : Byte
  /-- MODEL'S OWN: the inputs the host has already supplied for the coming cycles, the next one first (R80; log 1). -/
  pending : List CycleInput
  /-- MODEL'S OWN: how many cycles have begun; it numbers the free inputs (log 1). -/
  cycles : Nat
  /-- MODEL'S OWN: a program load is still admitted (R51; log 8). -/
  loadOpen : Bool
  deriving DecidableEq, Repr

/-- The state after reset (R27, R200). -/
def State.reset : State where
  mem := []
  V := Vector.replicate 16 0
  I := 0
  pc := 0x200
  stack := Vector.replicate 16 0
  sp := 0
  DT := 0
  ST := 0
  fb := Vector.replicate 32 0
  waiting := false
  waitReg := 0
  keypad := 0
  dirty := false
  halted := false
  faultCause := .none
  faultPc := 0
  faultOpcode := 0
  rnd := 0
  pending := []
  cycles := 0
  loadOpen := true

end Sys2Proof.Machine
end

