-- ==== Sys2Proof/Machine/Memory.lean ====
section
/-! DEFINITION. Main memory (spec/20_memory.md R40 to R47): the font table, the reset contents, reading and writing one byte, and the canonical form. -/

namespace Sys2Proof.Config

/-- `FONT_ROM[0..79]` at its default of R41, glyph by glyph, top row first (general knowledge of the spec, GK6; log 3). -/
def fontRom : List Byte :=
  [0xF0, 0x90, 0x90, 0x90, 0xF0] ++
  [0x20, 0x60, 0x20, 0x20, 0x70] ++
  [0xF0, 0x10, 0xF0, 0x80, 0xF0] ++
  [0xF0, 0x10, 0xF0, 0x10, 0xF0] ++
  [0x90, 0x90, 0xF0, 0x10, 0x10] ++
  [0xF0, 0x80, 0xF0, 0x10, 0xF0] ++
  [0xF0, 0x80, 0xF0, 0x90, 0xF0] ++
  [0xF0, 0x10, 0x20, 0x40, 0x40] ++
  [0xF0, 0x90, 0xF0, 0x90, 0xF0] ++
  [0xF0, 0x90, 0xF0, 0x10, 0xF0] ++
  [0xF0, 0x90, 0xF0, 0x90, 0x90] ++
  [0xE0, 0x90, 0xE0, 0x90, 0xE0] ++
  [0xF0, 0x80, 0x80, 0x80, 0xF0] ++
  [0xE0, 0x90, 0x90, 0x90, 0xE0] ++
  [0xF0, 0x80, 0xF0, 0x80, 0xF0] ++
  [0xF0, 0x80, 0xF0, 0x80, 0x80]

end Sys2Proof.Config

namespace Sys2Proof.Machine

/-- What an unlisted address reads as: its contents after reset, the font table in 0x000 to 0x04F and 0 above it (R27, R41; log 3, log 4). -/
def Memory.resetByte (a : Nat) : Byte := Config.fontRom.getD a Config.memFill

/-- The byte at an address. Every access checks its address first (`State.loadBytes`, Machine/Ops.lean), so an address above 4095 is never asked for by a step. -/
def Memory.read : Memory → Nat → Byte
  | [], a => Memory.resetByte a
  | (b, v) :: rest, a => if b = a then v else Memory.read rest a

/-- One cell in front of the cells above it, left out where it holds the byte an unlisted address reads as. -/
def Memory.cons (a : Nat) (v : Byte) (rest : Memory) : Memory :=
  if v = Memory.resetByte a then rest else (a, v) :: rest

/-- `mem[a] <- v`, keeping the canonical form. -/
def Memory.write : Memory → Nat → Byte → Memory
  | [], a, v => Memory.cons a v []
  | (b, w) :: rest, a, v =>
    if b < a then (b, w) :: Memory.write rest a v
    else if b = a then Memory.cons a v rest
    else Memory.cons a v ((b, w) :: rest)

/-- Bytes written at ascending addresses from `a` (R44). -/
def Memory.writeBytes : Memory → Nat → List Byte → Memory
  | m, _, [] => m
  | m, a, v :: vs => Memory.writeBytes (Memory.write m a v) (a + 1) vs

/-- The `n` bytes at ascending addresses from `a` (R44). -/
def Memory.readBytes (m : Memory) (a n : Nat) : List Byte := (List.range n).map fun j => Memory.read m (a + j)

/-- The cells from address `lo` on are in canonical form: addresses strictly rising, inside memory, no cell equal to what an unlisted address reads as. -/
def Memory.wfFrom (lo : Nat) : Memory → Bool
  | [] => true
  | (a, v) :: rest =>
    decide (lo ≤ a) && decide (a < Config.memSize) && v != Memory.resetByte a && Memory.wfFrom (a + 1) rest

/-- The canonical form of memory. -/
def Memory.wf (m : Memory) : Bool := Memory.wfFrom 0 m

end Sys2Proof.Machine
end

