-- ==== Sys2Proof/Machine/Ops.lean ====
section
/-! DEFINITION. The named operations over registers, memory, stack and program counter that the meanings share: the register file (spec/10_state.md R11),
the PC effects (spec/40_cycle.md R86), memory access with its bound check (spec/20_memory.md R42, R43), the call stack (R19), and taking a fault
(spec/60_exceptions.md R180) with the reset that alone leaves it (R181, R200). -/

namespace Sys2Proof.Machine

/-- What a meaning and a step answer. -/
abbrev Result := Host.Outcome State Fault Refusal

/-! ## General registers (R11) -/

/-- Read of `V[r]`. -/
def State.getV (s : State) (r : Reg) : Byte := s.V[r.toNat]

/-- `V[r] <- v`. -/
def State.setV (s : State) (r : Reg) (v : Byte) : State := { s with V := s.V.set r.toNat v }

/-- `V[j] <- ` the `j`-th byte of the list, from `V[first]` on in ascending order. -/
def State.setVFrom (s : State) (first : Nat) : List Byte → State
  | [] => s
  | v :: vs => (s.setV (BitVec.ofNat 4 first) v).setVFrom (first + 1) vs

/-- The values of `V[0]` to `V[x]`, `x` included (R144). -/
def State.regsUpTo (s : State) (x : Reg) : List Byte :=
  (List.range (x.toNat + 1)).map fun j => s.getV (BitVec.ofNat 4 j)

/-- The result goes to `V[x]` and then the flag to VF, which is written last (R12, R120). -/
def State.setResultThenFlag (s : State) (x : Reg) (result flag : Byte) : State := (s.setV x result).setV VF flag

/-! ## The program-counter sequencer (R86) -/

/-- What an instruction does to `pc`. -/
inductive PcEffect where
  /-- `pc <- pc + 2`. -/
  | next
  /-- `pc <- pc + 4`. -/
  | skip
  /-- `pc <- addr`. -/
  | jump (addr : Word)
  deriving DecidableEq, Repr

/-- The new `pc`. -/
def PcEffect.target : PcEffect → Word → Word
  | .next, pc => pc + 2
  | .skip, pc => pc + 4
  | .jump a, _ => a

/-- `Skip` if the condition holds, else `Next`. -/
def PcEffect.skipIf (c : Bool) : PcEffect := if c then .skip else .next

/-- Apply a PC effect. -/
def applyEffect (e : PcEffect) (s : State) : State := { s with pc := e.target s.pc }

/-- An instruction ends normally: its writes stand and its PC effect is applied (R86, R87). -/
def finish (e : PcEffect) (s : State) : Result := .next (applyEffect e s)

/-! ## Taking a fault, and leaving it (R180, R181) -/

/-- The code of a cause (R170). -/
def FaultCause.code : FaultCause → BitVec 3
  | .none => 0
  | .fetchOutOfBounds => 1
  | .stackOverflow => 2
  | .stackUnderflow => 3
  | .memoryOutOfBounds => 4
  | .keyIndexOutOfRange => 5

/-- `raise F(pc, op)`: the machine is Halted, the cause, the address and the opcode are recorded, and nothing else changes; `pc` stays (R180). -/
def enterHalted (c : FaultCause) (op : Word) (s : State) : State :=
  { s with halted := true, faultCause := c, faultPc := s.pc, faultOpcode := op }

/-- An instruction ends by raising a fault: the Halted state is the next state (R180; log 5). -/
def raise (c : FaultCause) (op : Word) (s : State) : Result := .next (enterHalted c op s)

/-- Reset, at any time and in any state: the only exit from Halted (R25, R181, R200). The inputs on the host's side go on (log 7). -/
def applyReset (s : State) : State := { State.reset with pending := s.pending, cycles := s.cycles }

/-! ## Memory access (R42 to R44) -/

/-- The bound check of R43: an access of `n` bytes from `a` stays inside memory; an access of no bytes always does. -/
def inMemory (a n : Nat) : Bool := n == 0 || decide (a + n ≤ Config.memSize)

/-- The `n` bytes from `a`, or nothing where the highest address is above 4095 (R42, R43). -/
def State.loadBytes (s : State) (a n : Nat) : Option (List Byte) :=
  if inMemory a n then some (Memory.readBytes s.mem a n) else none

/-- The bytes stored from `a` on, or nothing, with no byte stored, where the highest address is above 4095 (R43). -/
def State.storeBytes (s : State) (a : Nat) (vs : List Byte) : Option State :=
  if inMemory a vs.length then some { s with mem := Memory.writeBytes s.mem a vs } else none

/-! ## The call stack (R19) -/

/-- Push, or nothing where 16 entries are in use. -/
def State.push (s : State) (v : Word) : Option State :=
  if h : s.sp.val < 16 then some { s with stack := s.stack.set s.sp.val v, sp := ⟨s.sp.val + 1, by omega⟩ } else none

/-- Pop, or nothing where the stack is empty. The entry keeps its contents. -/
def State.pop (s : State) : Option (Word × State) :=
  if h : 0 < s.sp.val then
    some (s.stack[s.sp.val - 1]'(by omega), { s with sp := ⟨s.sp.val - 1, by omega⟩ })
  else none

end Sys2Proof.Machine
end

