-- ==== Sys2Proof/Machine/Operands.lean ====
section
/-! DEFINITION. The computed operands (spec/30_encoding.md R63): everything is unsigned, zero-extended and unscaled. -/

namespace Sys2Proof.Machine

/-- `zext_16(nnn)`: an absolute byte address (R63). -/
def absoluteAddr (nnn : Addr) : Word := nnn.setWidth 16

/-- `zext_16(nnn) + zext_16(V[0])`, not reduced to 12 bits (R103). -/
def offsetTarget (nnn : Addr) (v0 : Byte) : Word := nnn.setWidth 16 + v0.setWidth 16

/-- `(I + zext_16(v)) mod 65536` (R141). -/
def indexSum (i : Word) (v : Byte) : Word := i + v.setWidth 16

/-- `zext_16(v) * 5`, of the whole byte (R142). -/
def glyphAddr (v : Byte) : Word := v.setWidth 16 * BitVec.ofNat 16 Config.glyphBytes

/-- The decimal digits of a byte, hundreds first (R143, R45). -/
def decimalDigits (v : Byte) : List Byte :=
  [BitVec.ofNat 8 (v.toNat / 100), BitVec.ofNat 8 (v.toNat / 10 % 10), BitVec.ofNat 8 (v.toNat % 10)]

/-- Key `v` is pressed in this cycle's snapshot, or nothing where there is no such key (R160). -/
def State.keyPressed (s : State) (v : Byte) : Option Bool :=
  if v.toNat < Config.numKeys then some (s.keypad.getLsbD v.toNat) else none

end Sys2Proof.Machine
end

