-- ==== Sys2Proof/Machine/Flags.lean ====
section
/-! DEFINITION. The values VF takes as the flag (spec/10_state.md R12, R15). -/

namespace Sys2Proof.Machine

/-- A flag in a register: 1 or 0. -/
def flagOf (b : Bool) : Byte := if b then 1 else 0

/-- Carry out of an 8-bit addition: 1 iff the sum exceeds 255 (R127). -/
def carryFlag (a b : Byte) : Byte := flagOf (decide (a.toNat + b.toNat > 255))

/-- The flag of a subtraction: 1 iff the minuend is strictly greater than the subtrahend (R128, R130). -/
def greaterFlag (minuend subtrahend : Byte) : Byte := flagOf (decide (minuend.toNat > subtrahend.toNat))

/-- The bit a right shift shifts out: bit 0 before the shift (R129). -/
def lowBitFlag (a : Byte) : Byte := flagOf (a.getLsbD 0)

/-- The bit a left shift shifts out: bit 7 before the shift (R132). -/
def highBitFlag (a : Byte) : Byte := flagOf (a.getLsbD 7)

end Sys2Proof.Machine
end

