-- ==== Sys2Proof/Machine/Cycle.lean ====
section
/-! DEFINITION. The parts of one cycle around the instruction (spec/40_cycle.md R80 to R85, R88): taking the inputs, the Halted and WaitingForKey branches, the fetch,
and the timer countdown. -/

namespace Sys2Proof.Machine

/-! ## Inputs (R80; log 1) -/

/-- The `keys` input of the coming cycle: what the host has supplied, else a free value. -/
def State.nextKeys (s : State) : Word :=
  match s.pending with
  | input :: _ => input.keys
  | [] => Config.freeKeys s.cycles

/-- The `rnd` input of the coming cycle: what the host has supplied, else a free value. -/
def State.nextRnd (s : State) : Byte :=
  match s.pending with
  | input :: _ => input.rnd
  | [] => Config.freeRnd s.cycles

/-- The start of every cycle: `keypad <- keys`, `dirty <- 0` (R83). The inputs are used up and no load is admitted any more (R51). -/
def beginCycle (s : State) : State :=
  { s with
    keypad := s.nextKeys, dirty := false
    rnd := s.nextRnd, pending := s.pending.tail, cycles := s.cycles + 1, loadOpen := false }

/-! ## WaitingForKey (R84) -/

/-- The least pressed key, if any. -/
def leastKey (keys : Word) : Option (BitVec 4) :=
  ((List.range Config.numKeys).find? fun k => keys.getLsbD k).map (BitVec.ofNat 4)

/-- The wait branch: with a key down its index goes to `V[wait_reg]` and the wait ends; else nothing changes (R84). -/
def scanKeys (s : State) : State :=
  match leastKey s.keypad with
  | none => s
  | some k => { s.setV s.waitReg (k.setWidth 8) with waiting := false }

/-! ## Running: fetch and timers -/

/-- The opcode at `pc`, or nothing where `pc + 1 > 4095` (R85). -/
def fetch (s : State) : Option Word :=
  match s.loadBytes s.pc.toNat Config.opcodeBytes with
  | some [hi, lo] => some (opcodeOfBytes hi lo)
  | _ => none

/-- A timer counts down by 1 and stays at 0 (R88). -/
def countDown (t : Byte) : Byte := if t.toNat > 0 then t - 1 else t

/-- Both timers count down (R88). -/
def tickTimers (s : State) : State := { s with DT := countDown s.DT, ST := countDown s.ST }

/-- The end of a Running cycle: the timers count down, but not where the instruction raised a fault (R88, R180). -/
def endCycle : Result → Result
  | .next s => .next (if s.halted then s else tickTimers s)
  | .fault r => .fault r
  | .refused r => .refused r

end Sys2Proof.Machine
end

