-- ==== Sys2Proof/Machine/Alu.lean ====
section
/-! DEFINITION. Loads, arithmetic, logic, shifts and the random byte (spec/42_alu.md). All operands are read before anything is written (R120). -/

namespace Sys2Proof.Machine

/-- `LD Vx, kk` (R121). -/
def execLdImm (x : Reg) (kk : Byte) (s : State) : Result := finish .next (s.setV x kk)

/-- `ADD Vx, kk`: no flag (R122). -/
def execAddImm (x : Reg) (kk : Byte) (s : State) : Result := finish .next (s.setV x (s.getV x + kk))

/-- `LD Vx, Vy` (R123). -/
def execLdReg (x y : Reg) (s : State) : Result := finish .next (s.setV x (s.getV y))

/-- `OR Vx, Vy`: no flag (R124). -/
def execOrReg (x y : Reg) (s : State) : Result := finish .next (s.setV x (s.getV x ||| s.getV y))

/-- `AND Vx, Vy`: no flag (R125). -/
def execAndReg (x y : Reg) (s : State) : Result := finish .next (s.setV x (s.getV x &&& s.getV y))

/-- `XOR Vx, Vy`: no flag (R126). -/
def execXorReg (x y : Reg) (s : State) : Result := finish .next (s.setV x (s.getV x ^^^ s.getV y))

/-- `ADD Vx, Vy`, carry in VF (R127). -/
def execAddReg (x y : Reg) (s : State) : Result :=
  let a := s.getV x
  let b := s.getV y
  finish .next (s.setResultThenFlag x (a + b) (carryFlag a b))

/-- `SUB Vx, Vy`: `V[x] - V[y]`, VF = 1 iff `V[x] > V[y]` (R128). -/
def execSubReg (x y : Reg) (s : State) : Result :=
  let a := s.getV x
  let b := s.getV y
  finish .next (s.setResultThenFlag x (a - b) (greaterFlag a b))

/-- `SHR Vx`: `V[x]` shifted in place, `y` ignored (R129). -/
def execShr (x _y : Reg) (s : State) : Result :=
  let a := s.getV x
  finish .next (s.setResultThenFlag x (a >>> 1) (lowBitFlag a))

/-- `SUBN Vx, Vy`: `V[y] - V[x]`, VF = 1 iff `V[y] > V[x]` (R130). -/
def execSubnReg (x y : Reg) (s : State) : Result :=
  let a := s.getV x
  let b := s.getV y
  finish .next (s.setResultThenFlag x (b - a) (greaterFlag b a))

/-- `SHL Vx`: `V[x]` shifted in place, `y` ignored (R132). -/
def execShl (x _y : Reg) (s : State) : Result :=
  let a := s.getV x
  finish .next (s.setResultThenFlag x (a <<< 1) (highBitFlag a))

/-- `RND Vx, kk`: the cycle's random byte AND `kk` (R131). -/
def execRnd (x : Reg) (kk : Byte) (s : State) : Result := finish .next (s.setV x (s.rnd &&& kk))

end Sys2Proof.Machine
end

