-- ==== Sys2Proof/Machine/FrameBuffer.lean ====
section
/-! DEFINITION. The frame buffer and its two primitives `FbClear` and `FbDraw` (spec/44_display.md R150, R151). -/

namespace Sys2Proof.Machine

/-- The pixel in row `y`, column `x`: `fb[y][x]`, both below the buffer's size. -/
def FrameBuffer.pixel (fb : FrameBuffer) (y x : Nat) : Bool := (fb.getD y 0).getLsbD x

/-- `fb[y][x] <- fb[y][x] ^ bit`. -/
def FrameBuffer.xorPixel (fb : FrameBuffer) (y x : Nat) (bit : Bool) : FrameBuffer :=
  if bit then fb.setIfInBounds y (fb.getD y 0 ^^^ BitVec.twoPow 64 x) else fb

/-- A frame buffer being drawn to, and whether a collision has been recorded. -/
structure Drawing where
  /-- The pixels so far. -/
  fb : FrameBuffer
  /-- A sprite bit 1 has met a pixel 1. -/
  collision : Bool
  deriving DecidableEq, Repr

/-- One sprite bit onto one pixel: the collision is recorded first, then the pixel XORed (R151). -/
def Drawing.drawBit (d : Drawing) (y x : Nat) (bit : Bool) : Drawing :=
  { fb := d.fb.xorPixel y x bit, collision := d.collision || (bit && d.fb.pixel y x) }

/-- The bits of one sprite row from bit `b` on, most significant first, the column of each reduced by itself (R151). -/
def Drawing.drawRowFrom (d : Drawing) (ox y : Nat) (row : Byte) (b : Nat) : Nat → Drawing
  | 0 => d
  | k + 1 =>
    (d.drawBit y ((ox + b) % Config.fbWidth) (row.getLsbD (7 - b))).drawRowFrom ox y row (b + 1) k

/-- The sprite rows from row number `r` on, the line of each reduced by itself (R151). -/
def Drawing.drawRowsFrom (d : Drawing) (ox oy : Nat) (r : Nat) : List Byte → Drawing
  | [] => d
  | row :: rows =>
    (d.drawRowFrom ox ((oy + r) % Config.fbHeight) row 0 Config.spriteWidth).drawRowsFrom ox oy (r + 1) rows

/-- `FbDraw(ox, oy, rows)` on the pixels (R151). -/
def fbDraw (fb : FrameBuffer) (ox oy : Byte) (rows : List Byte) : Drawing :=
  Drawing.drawRowsFrom { fb := fb, collision := false } ox.toNat oy.toNat 0 rows

/-- `FbClear()`: every pixel 0, and dirty (R150). -/
def State.fbClear (s : State) : State := { s with fb := Vector.replicate 32 0, dirty := true }

/-- `FbDraw` in the state: new pixels, dirty whatever was drawn (R151). -/
def State.withDrawing (s : State) (d : Drawing) : State := { s with fb := d.fb, dirty := true }

end Sys2Proof.Machine
end

