-- ==== Sys2Proof/Machine/Display.lean ====
section
/-! DEFINITION. The display instructions (spec/44_display.md R152, R153). -/

namespace Sys2Proof.Machine

/-- `CLS` (R152). -/
def execCls (s : State) : Result := finish .next s.fbClear

/-- `DRW Vx, Vy, n`: the bound check, VF cleared, the origin read after that, the sprite drawn, the collision in VF last (R153). -/
def execDrw (x y : Reg) (n : Nibble) (s : State) : Result :=
  match s.loadBytes s.I.toNat n.toNat with
  | none => raise .memoryOutOfBounds (encode (.drw x y n)) s
  | some rows =>
    let s1 := s.setV VF 0
    let d := fbDraw s1.fb (s1.getV x) (s1.getV y) rows
    finish .next ((s1.withDrawing d).setV VF (flagOf d.collision))

end Sys2Proof.Machine
end

