-- ==== Sys2Proof/Machine/Flow.lean ====
section
/-! DEFINITION. Control transfer (spec/41_flow.md) and the unmatched no-op (spec/40_cycle.md R90). -/

namespace Sys2Proof.Machine

/-- `NOP`, any unmatched opcode (R90). -/
def execNop (_op : Word) (s : State) : Result := finish .next s

/-- `RET` (R100). -/
def execRet (s : State) : Result :=
  match s.pop with
  | none => raise .stackUnderflow (encode .ret) s
  | some (addr, s') => finish (.jump addr) s'

/-- `JP nnn` (R101). -/
def execJp (nnn : Addr) (s : State) : Result := finish (.jump (absoluteAddr nnn)) s

/-- `CALL nnn` (R102). -/
def execCall (nnn : Addr) (s : State) : Result :=
  match s.push (s.pc + 2) with
  | none => raise .stackOverflow (encode (.call nnn)) s
  | some s' => finish (.jump (absoluteAddr nnn)) s'

/-- `JP V0, nnn` (R103). -/
def execJpV0 (nnn : Addr) (s : State) : Result := finish (.jump (offsetTarget nnn (s.getV 0))) s

/-- `SE Vx, kk` (R104). -/
def execSeImm (x : Reg) (kk : Byte) (s : State) : Result := finish (.skipIf (s.getV x == kk)) s

/-- `SNE Vx, kk` (R105). -/
def execSneImm (x : Reg) (kk : Byte) (s : State) : Result := finish (.skipIf (s.getV x != kk)) s

/-- `SE Vx, Vy` (R106). -/
def execSeReg (x y : Reg) (s : State) : Result := finish (.skipIf (s.getV x == s.getV y)) s

/-- `SNE Vx, Vy` (R107). -/
def execSneReg (x y : Reg) (s : State) : Result := finish (.skipIf (s.getV x != s.getV y)) s

end Sys2Proof.Machine
end

