-- ==== Sys2Proof/Machine/IndexMemory.lean ====
section
/-! DEFINITION. The index register and the instructions that move bytes between registers and memory (spec/43_index_memory.md). -/

namespace Sys2Proof.Machine

/-- `LD I, nnn` (R140). -/
def execLdI (nnn : Addr) (s : State) : Result := finish .next { s with I := absoluteAddr nnn }

/-- `ADD I, Vx`: no flag (R141). -/
def execAddI (x : Reg) (s : State) : Result := finish .next { s with I := indexSum s.I (s.getV x) }

/-- `LD F, Vx` (R142). -/
def execLdF (x : Reg) (s : State) : Result := finish .next { s with I := glyphAddr (s.getV x) }

/-- `LD B, Vx`: three digits at `I`, `I + 1`, `I + 2` (R143). -/
def execLdB (x : Reg) (s : State) : Result :=
  match s.storeBytes s.I.toNat (decimalDigits (s.getV x)) with
  | none => raise .memoryOutOfBounds (encode (.ldB x)) s
  | some s' => finish .next s'

/-- `LD [I], Vx`: `V[0]` to `V[x]` stored from `I` on; `I` unchanged (R144). -/
def execLdMemVx (x : Reg) (s : State) : Result :=
  match s.storeBytes s.I.toNat (s.regsUpTo x) with
  | none => raise .memoryOutOfBounds (encode (.ldMemVx x)) s
  | some s' => finish .next s'

/-- `LD Vx, [I]`: `V[0]` to `V[x]` loaded from `I` on; `I` unchanged (R145). -/
def execLdVxMem (x : Reg) (s : State) : Result :=
  match s.loadBytes s.I.toNat (x.toNat + 1) with
  | none => raise .memoryOutOfBounds (encode (.ldVxMem x)) s
  | some bytes => finish .next (s.setVFrom 0 bytes)

end Sys2Proof.Machine
end

