-- ==== Sys2Proof/Machine/InputTimers.lean ====
section
/-! DEFINITION. The keypad and timer instructions (spec/45_input_timers.md). -/

namespace Sys2Proof.Machine

/-- `SKP Vx` (R160). -/
def execSkp (x : Reg) (s : State) : Result :=
  match s.keyPressed (s.getV x) with
  | none => raise .keyIndexOutOfRange (encode (.skp x)) s
  | some pressed => finish (.skipIf pressed) s

/-- `SKNP Vx` (R161). -/
def execSknp (x : Reg) (s : State) : Result :=
  match s.keyPressed (s.getV x) with
  | none => raise .keyIndexOutOfRange (encode (.sknp x)) s
  | some pressed => finish (.skipIf (!pressed)) s

/-- `LD Vx, K`: enter the wait; the keypad is not looked at in this cycle (R162). -/
def execLdVxK (x : Reg) (s : State) : Result := finish .next { s with waiting := true, waitReg := x }

/-- `LD Vx, DT` (R163). -/
def execLdVxDt (x : Reg) (s : State) : Result := finish .next (s.setV x s.DT)

/-- `LD DT, Vx` (R164). -/
def execLdDtVx (x : Reg) (s : State) : Result := finish .next { s with DT := s.getV x }

/-- `LD ST, Vx` (R165). -/
def execLdStVx (x : Reg) (s : State) : Result := finish .next { s with ST := s.getV x }

end Sys2Proof.Machine
end

