-- ==== Sys2Proof/Machine/HostPort.lean ====
section
/-! DEFINITION. The host's side: the outputs of a cycle (spec/10_state.md R24, spec/40_cycle.md R89), the program load (spec/20_memory.md R51), and inputs supplied for
coming cycles (R80). -/

namespace Sys2Proof.Machine

/-! ## Outputs (R24, R89; log 9) -/

/-- The output snapshot at the end of a cycle. -/
structure Outputs where
  /-- `fb_out`: all pixels. -/
  fbOut : FrameBuffer
  /-- `fb_changed`. -/
  fbChanged : Bool
  /-- `beep`. -/
  beep : Bool
  /-- `fault_valid`. -/
  faultValid : Bool
  /-- `fault_cause`, as its code. -/
  faultCause : BitVec 3
  /-- `fault_pc`. -/
  faultPc : Word
  /-- `fault_opcode`. -/
  faultOpcode : Word
  deriving DecidableEq, Repr

/-- The snapshot is a function of the state at the end of the cycle (R89). -/
def outputs (s : State) : Outputs where
  fbOut := s.fb
  fbChanged := s.dirty
  beep := decide (s.ST.toNat > 0)
  faultValid := s.halted
  faultCause := s.faultCause.code
  faultPc := s.faultPc
  faultOpcode := s.faultOpcode

/-! ## Program load (R51, R176; log 8) -/

/-- Why a load is rejected; it then writes nothing. -/
inductive LoadError where
  /-- The program is longer than 3584 bytes (R51, R176). -/
  | programTooLarge
  /-- A cycle has begun, or a program has been loaded, since reset (R51, D27). -/
  | notAdmitted
  deriving DecidableEq, Repr

/-- The host loads a program at 0x200: the bytes verbatim, and nothing else changes (R51). -/
def loadProgram (prog : List Byte) (s : State) : Except LoadError State :=
  if s.loadOpen then
    if prog.length ≤ Config.programMax then
      .ok { s with mem := Memory.writeBytes s.mem Config.programBase prog, loadOpen := false }
    else .error .programTooLarge
  else .error .notAdmitted

/-- The host supplies the inputs of the coming cycles, after those it has already supplied (R80; log 1). -/
def supplyInputs (inputs : List CycleInput) (s : State) : State := { s with pending := s.pending ++ inputs }

end Sys2Proof.Machine
end

