-- ==== Sys2Proof/Machine/Step.lean ====
section
/-! DEFINITION. One cycle of the engine (spec/40_cycle.md R81), and a word placed where the next cycle fetches it. -/

namespace Sys2Proof.Machine

/-- One cycle, in the order of R81: the inputs; then nothing more if Halted (R82), the key scan if waiting (R84), else fetch, the instruction with its PC effect, and the
timers (R85 to R88). -/
def step (s : State) : Host.Outcome State Fault Refusal :=
  let s0 := beginCycle s
  if s0.halted then .next s0
  else if s0.waiting then .next (scanKeys s0)
  else
    match fetch s0 with
    | none => raise .fetchOutOfBounds 0 s0
    | some op => endCycle (exec (decode op) s0)

/-- `s` with the table word `w` of `nbits` bits stored high byte first at `pc`, where the next cycle fetches it, and the machine Running, which the fetch needs. It stands
for the host's program load (log 8). A `pc` above 0xFFE has no word to fetch, and memory is then left as it is. -/
def State.withFetchWord (s : State) (nbits w : Nat) : State :=
  match s.storeBytes s.pc.toNat (bytesOfOpcode (BitVec.ofNat 16 (w % 2 ^ nbits))) with
  | some s' => { s' with halted := false, waiting := false }
  | none => { s with halted := false, waiting := false }

end Sys2Proof.Machine
end

