-- ==== Sys2Proof/Laws/Memory.lean ====
section
/-! SUPPORT. Memory: what a read gives after a write, and that every operation keeps the canonical form. -/

namespace Sys2Proof.Machine

/-- Below the first cell every address reads as its reset contents. -/
theorem Memory.read_below {lo : Nat} {m : Memory} (h : Memory.wfFrom lo m = true) {a : Nat} (ha : a < lo) :
    Memory.read m a = Memory.resetByte a := by
  induction m generalizing lo with
  | nil => rfl
  | cons c rest ih =>
    obtain ⟨b, v⟩ := c
    simp only [Memory.wfFrom, Bool.and_eq_true, decide_eq_true_eq] at h
    have hb : b ≠ a := by omega
    simp [Memory.read, hb, ih h.2 (by omega)]

/-- A canonical list from a higher address on is canonical from a lower one on. -/
theorem Memory.wfFrom_mono {lo hi : Nat} {m : Memory} (h : Memory.wfFrom hi m = true) (hle : lo ≤ hi) :
    Memory.wfFrom lo m = true := by
  cases m with
  | nil => rfl
  | cons c rest =>
    obtain ⟨b, v⟩ := c
    simp only [Memory.wfFrom, Bool.and_eq_true, decide_eq_true_eq] at h ⊢
    exact ⟨⟨⟨by omega, h.1.1.2⟩, h.1.2⟩, h.2⟩

/-- `Memory.cons` puts a cell in front of cells above it and keeps the form. -/
theorem Memory.wfFrom_cons {lo a : Nat} {v : Byte} {rest : Memory} (hlo : lo ≤ a) (ha : a < Config.memSize)
    (h : Memory.wfFrom (a + 1) rest = true) : Memory.wfFrom lo (Memory.cons a v rest) = true := by
  unfold Memory.cons
  split
  · exact Memory.wfFrom_mono h (by omega)
  · next hv => simp_all [Memory.wfFrom]

/-- Reading after `Memory.cons`. -/
theorem Memory.read_cons {a : Nat} {v : Byte} {rest : Memory} (h : Memory.wfFrom (a + 1) rest = true) (b : Nat) :
    Memory.read (Memory.cons a v rest) b = if b = a then v else Memory.read rest b := by
  unfold Memory.cons
  split
  · next hv =>
    split
    · next hb => rw [hb, Memory.read_below h (by omega), hv]
    · rfl
  · next hv =>
    by_cases hb : b = a
    · simp [Memory.read, hb]
    · have : a ≠ b := fun e => hb e.symm
      simp [Memory.read, hb, this]

/-- A write keeps the canonical form. -/
theorem Memory.wfFrom_write {lo : Nat} {m : Memory} (h : Memory.wfFrom lo m = true) {a : Nat} (hlo : lo ≤ a)
    (ha : a < Config.memSize) (v : Byte) : Memory.wfFrom lo (Memory.write m a v) = true := by
  induction m generalizing lo with
  | nil => exact Memory.wfFrom_cons hlo ha rfl
  | cons c rest ih =>
    obtain ⟨b, w⟩ := c
    have h' := h
    simp only [Memory.wfFrom, Bool.and_eq_true, decide_eq_true_eq] at h'
    obtain ⟨⟨⟨hb1, hb2⟩, hb3⟩, hrest⟩ := h'
    unfold Memory.write
    split
    · next hlt =>
      simp only [Memory.wfFrom, Bool.and_eq_true, decide_eq_true_eq]
      exact ⟨⟨⟨hb1, hb2⟩, hb3⟩, ih hrest (by omega)⟩
    · split
      · next heq => exact Memory.wfFrom_cons hlo ha (heq ▸ hrest)
      · refine Memory.wfFrom_cons hlo ha ?_
        simp only [Memory.wfFrom, Bool.and_eq_true, decide_eq_true_eq]
        exact ⟨⟨⟨by omega, hb2⟩, hb3⟩, hrest⟩

/-- A read after a write gives the byte written at its address and the old byte elsewhere (R48). -/
theorem Memory.read_write_from {lo : Nat} {m : Memory} (h : Memory.wfFrom lo m = true) (a : Nat) (v : Byte) (b : Nat) :
    Memory.read (Memory.write m a v) b = if b = a then v else Memory.read m b := by
  induction m generalizing lo with
  | nil => exact Memory.read_cons rfl b
  | cons c rest ih =>
    obtain ⟨k, w⟩ := c
    have h' := h
    simp only [Memory.wfFrom, Bool.and_eq_true, decide_eq_true_eq] at h'
    obtain ⟨⟨⟨hk1, hk2⟩, hk3⟩, hrest⟩ := h'
    unfold Memory.write
    split
    · next hlt =>
      by_cases hb : k = b
      · have : ¬ b = a := by omega
        simp [Memory.read, hb, this]
      · simp [Memory.read, hb, ih hrest]
    · split
      · next heq =>
        subst heq
        rw [Memory.read_cons hrest b]
        by_cases hb : b = k
        · simp [hb]
        · have : k ≠ b := fun e => hb e.symm
          simp [Memory.read, hb, this]
      · refine Memory.read_cons ?_ b
        simp only [Memory.wfFrom, Bool.and_eq_true, decide_eq_true_eq]
        exact ⟨⟨⟨by omega, hk2⟩, hk3⟩, hrest⟩

/-- A write inside memory keeps the canonical form. -/
theorem Memory.wf_write {m : Memory} (h : Memory.wf m = true) {a : Nat} (ha : a < Config.memSize) (v : Byte) :
    Memory.wf (Memory.write m a v) = true := Memory.wfFrom_write h (Nat.zero_le a) ha v

/-- A read after a write. -/
theorem Memory.read_write {m : Memory} (h : Memory.wf m = true) (a : Nat) (v : Byte) (b : Nat) :
    Memory.read (Memory.write m a v) b = if b = a then v else Memory.read m b := Memory.read_write_from h a v b

/-- Writing a run of bytes inside memory keeps the canonical form. -/
theorem Memory.wf_writeBytes {m : Memory} (h : Memory.wf m = true) {a : Nat} {vs : List Byte}
    (ha : a + vs.length ≤ Config.memSize) : Memory.wf (Memory.writeBytes m a vs) = true := by
  induction vs generalizing m a with
  | nil => exact h
  | cons v vs ih =>
    simp only [List.length_cons] at ha
    exact ih (Memory.wf_write h (by omega) v) (by omega)

/-- A read after a run of bytes inside memory is written: the byte written there, or the old byte outside the run. -/
theorem Memory.read_writeBytes {m : Memory} (h : Memory.wf m = true) {a : Nat} {vs : List Byte}
    (ha : a + vs.length ≤ Config.memSize) (b : Nat) :
    Memory.read (Memory.writeBytes m a vs) b =
      if a ≤ b ∧ b < a + vs.length then vs.getD (b - a) 0 else Memory.read m b := by
  induction vs generalizing m a with
  | nil =>
    have : ¬ (a ≤ b ∧ b < a + ([] : List Byte).length) := by simp
    rw [if_neg this]; rfl
  | cons v vs ih =>
    simp only [List.length_cons] at ha
    rw [Memory.writeBytes, ih (Memory.wf_write h (by omega) v) (by omega), Memory.read_write h]
    simp only [List.length_cons]
    by_cases hb : b = a
    · subst hb
      simp
    · by_cases hin : a + 1 ≤ b ∧ b < a + 1 + vs.length
      · have h1 : a ≤ b ∧ b < a + (vs.length + 1) := by omega
        have h2 : b - a = (b - (a + 1)) + 1 := by omega
        rw [if_pos hin, if_pos h1, h2, List.getD_cons_succ]
      · have h1 : ¬ (a ≤ b ∧ b < a + (vs.length + 1)) := by omega
        rw [if_neg hin, if_neg h1, if_neg hb]

/-- The bytes read from `a` on are the bytes at `a`, `a + 1`, and so on. -/
@[simp] theorem Memory.length_readBytes (m : Memory) (a n : Nat) : (Memory.readBytes m a n).length = n := by
  simp [Memory.readBytes]

/-- Memory after reset is canonical. -/
theorem State.reset_mem_wf : Memory.wf State.reset.mem = true := rfl

end Sys2Proof.Machine
end

