-- ==== Sys2Proof/Laws/State.lean ====
section
/-! SUPPORT. One lemma per field for each named update of the state, true by definition, so that no later proof unfolds a record update. -/

namespace Sys2Proof.Machine

variable (s : State)

/-! ## `setV`. `V[r] <- v` changes `V` alone (R11). -/

@[simp] theorem setV_mem (r : Reg) (v : Byte) : (s.setV r v).mem = s.mem := rfl
@[simp] theorem setV_V (r : Reg) (v : Byte) : (s.setV r v).V = s.V.set r.toNat v := rfl
@[simp] theorem setV_I (r : Reg) (v : Byte) : (s.setV r v).I = s.I := rfl
@[simp] theorem setV_pc (r : Reg) (v : Byte) : (s.setV r v).pc = s.pc := rfl
@[simp] theorem setV_stack (r : Reg) (v : Byte) : (s.setV r v).stack = s.stack := rfl
@[simp] theorem setV_sp (r : Reg) (v : Byte) : (s.setV r v).sp = s.sp := rfl
@[simp] theorem setV_DT (r : Reg) (v : Byte) : (s.setV r v).DT = s.DT := rfl
@[simp] theorem setV_ST (r : Reg) (v : Byte) : (s.setV r v).ST = s.ST := rfl
@[simp] theorem setV_fb (r : Reg) (v : Byte) : (s.setV r v).fb = s.fb := rfl
@[simp] theorem setV_waiting (r : Reg) (v : Byte) : (s.setV r v).waiting = s.waiting := rfl
@[simp] theorem setV_waitReg (r : Reg) (v : Byte) : (s.setV r v).waitReg = s.waitReg := rfl
@[simp] theorem setV_keypad (r : Reg) (v : Byte) : (s.setV r v).keypad = s.keypad := rfl
@[simp] theorem setV_dirty (r : Reg) (v : Byte) : (s.setV r v).dirty = s.dirty := rfl
@[simp] theorem setV_halted (r : Reg) (v : Byte) : (s.setV r v).halted = s.halted := rfl
@[simp] theorem setV_faultCause (r : Reg) (v : Byte) : (s.setV r v).faultCause = s.faultCause := rfl
@[simp] theorem setV_faultPc (r : Reg) (v : Byte) : (s.setV r v).faultPc = s.faultPc := rfl
@[simp] theorem setV_faultOpcode (r : Reg) (v : Byte) : (s.setV r v).faultOpcode = s.faultOpcode := rfl
@[simp] theorem setV_rnd (r : Reg) (v : Byte) : (s.setV r v).rnd = s.rnd := rfl
@[simp] theorem setV_pending (r : Reg) (v : Byte) : (s.setV r v).pending = s.pending := rfl
@[simp] theorem setV_cycles (r : Reg) (v : Byte) : (s.setV r v).cycles = s.cycles := rfl
@[simp] theorem setV_loadOpen (r : Reg) (v : Byte) : (s.setV r v).loadOpen = s.loadOpen := rfl

/-! ## `applyEffect`. A PC effect changes `pc` alone (R86). -/

@[simp] theorem applyEffect_mem (e : PcEffect) : (applyEffect e s).mem = s.mem := rfl
@[simp] theorem applyEffect_V (e : PcEffect) : (applyEffect e s).V = s.V := rfl
@[simp] theorem applyEffect_I (e : PcEffect) : (applyEffect e s).I = s.I := rfl
@[simp] theorem applyEffect_pc (e : PcEffect) : (applyEffect e s).pc = e.target s.pc := rfl
@[simp] theorem applyEffect_stack (e : PcEffect) : (applyEffect e s).stack = s.stack := rfl
@[simp] theorem applyEffect_sp (e : PcEffect) : (applyEffect e s).sp = s.sp := rfl
@[simp] theorem applyEffect_DT (e : PcEffect) : (applyEffect e s).DT = s.DT := rfl
@[simp] theorem applyEffect_ST (e : PcEffect) : (applyEffect e s).ST = s.ST := rfl
@[simp] theorem applyEffect_fb (e : PcEffect) : (applyEffect e s).fb = s.fb := rfl
@[simp] theorem applyEffect_waiting (e : PcEffect) : (applyEffect e s).waiting = s.waiting := rfl
@[simp] theorem applyEffect_waitReg (e : PcEffect) : (applyEffect e s).waitReg = s.waitReg := rfl
@[simp] theorem applyEffect_keypad (e : PcEffect) : (applyEffect e s).keypad = s.keypad := rfl
@[simp] theorem applyEffect_dirty (e : PcEffect) : (applyEffect e s).dirty = s.dirty := rfl
@[simp] theorem applyEffect_halted (e : PcEffect) : (applyEffect e s).halted = s.halted := rfl
@[simp] theorem applyEffect_faultCause (e : PcEffect) : (applyEffect e s).faultCause = s.faultCause := rfl
@[simp] theorem applyEffect_faultPc (e : PcEffect) : (applyEffect e s).faultPc = s.faultPc := rfl
@[simp] theorem applyEffect_faultOpcode (e : PcEffect) : (applyEffect e s).faultOpcode = s.faultOpcode := rfl
@[simp] theorem applyEffect_rnd (e : PcEffect) : (applyEffect e s).rnd = s.rnd := rfl
@[simp] theorem applyEffect_pending (e : PcEffect) : (applyEffect e s).pending = s.pending := rfl
@[simp] theorem applyEffect_cycles (e : PcEffect) : (applyEffect e s).cycles = s.cycles := rfl
@[simp] theorem applyEffect_loadOpen (e : PcEffect) : (applyEffect e s).loadOpen = s.loadOpen := rfl

/-! ## `enterHalted`. Taking a fault writes `halted` and the three fault registers (R180). -/

@[simp] theorem enterHalted_mem (c : FaultCause) (op : Word) : (enterHalted c op s).mem = s.mem := rfl
@[simp] theorem enterHalted_V (c : FaultCause) (op : Word) : (enterHalted c op s).V = s.V := rfl
@[simp] theorem enterHalted_I (c : FaultCause) (op : Word) : (enterHalted c op s).I = s.I := rfl
@[simp] theorem enterHalted_pc (c : FaultCause) (op : Word) : (enterHalted c op s).pc = s.pc := rfl
@[simp] theorem enterHalted_stack (c : FaultCause) (op : Word) : (enterHalted c op s).stack = s.stack := rfl
@[simp] theorem enterHalted_sp (c : FaultCause) (op : Word) : (enterHalted c op s).sp = s.sp := rfl
@[simp] theorem enterHalted_DT (c : FaultCause) (op : Word) : (enterHalted c op s).DT = s.DT := rfl
@[simp] theorem enterHalted_ST (c : FaultCause) (op : Word) : (enterHalted c op s).ST = s.ST := rfl
@[simp] theorem enterHalted_fb (c : FaultCause) (op : Word) : (enterHalted c op s).fb = s.fb := rfl
@[simp] theorem enterHalted_waiting (c : FaultCause) (op : Word) : (enterHalted c op s).waiting = s.waiting := rfl
@[simp] theorem enterHalted_waitReg (c : FaultCause) (op : Word) : (enterHalted c op s).waitReg = s.waitReg := rfl
@[simp] theorem enterHalted_keypad (c : FaultCause) (op : Word) : (enterHalted c op s).keypad = s.keypad := rfl
@[simp] theorem enterHalted_dirty (c : FaultCause) (op : Word) : (enterHalted c op s).dirty = s.dirty := rfl
@[simp] theorem enterHalted_halted (c : FaultCause) (op : Word) : (enterHalted c op s).halted = true := rfl
@[simp] theorem enterHalted_faultCause (c : FaultCause) (op : Word) : (enterHalted c op s).faultCause = c := rfl
@[simp] theorem enterHalted_faultPc (c : FaultCause) (op : Word) : (enterHalted c op s).faultPc = s.pc := rfl
@[simp] theorem enterHalted_faultOpcode (c : FaultCause) (op : Word) : (enterHalted c op s).faultOpcode = op := rfl
@[simp] theorem enterHalted_rnd (c : FaultCause) (op : Word) : (enterHalted c op s).rnd = s.rnd := rfl
@[simp] theorem enterHalted_pending (c : FaultCause) (op : Word) : (enterHalted c op s).pending = s.pending := rfl
@[simp] theorem enterHalted_cycles (c : FaultCause) (op : Word) : (enterHalted c op s).cycles = s.cycles := rfl
@[simp] theorem enterHalted_loadOpen (c : FaultCause) (op : Word) : (enterHalted c op s).loadOpen = s.loadOpen := rfl

/-! ## `tickTimers`. The countdown changes the timers alone (R88). -/

@[simp] theorem tickTimers_mem : (tickTimers s).mem = s.mem := rfl
@[simp] theorem tickTimers_V : (tickTimers s).V = s.V := rfl
@[simp] theorem tickTimers_I : (tickTimers s).I = s.I := rfl
@[simp] theorem tickTimers_pc : (tickTimers s).pc = s.pc := rfl
@[simp] theorem tickTimers_stack : (tickTimers s).stack = s.stack := rfl
@[simp] theorem tickTimers_sp : (tickTimers s).sp = s.sp := rfl
@[simp] theorem tickTimers_DT : (tickTimers s).DT = countDown s.DT := rfl
@[simp] theorem tickTimers_ST : (tickTimers s).ST = countDown s.ST := rfl
@[simp] theorem tickTimers_fb : (tickTimers s).fb = s.fb := rfl
@[simp] theorem tickTimers_waiting : (tickTimers s).waiting = s.waiting := rfl
@[simp] theorem tickTimers_waitReg : (tickTimers s).waitReg = s.waitReg := rfl
@[simp] theorem tickTimers_keypad : (tickTimers s).keypad = s.keypad := rfl
@[simp] theorem tickTimers_dirty : (tickTimers s).dirty = s.dirty := rfl
@[simp] theorem tickTimers_halted : (tickTimers s).halted = s.halted := rfl
@[simp] theorem tickTimers_faultCause : (tickTimers s).faultCause = s.faultCause := rfl
@[simp] theorem tickTimers_faultPc : (tickTimers s).faultPc = s.faultPc := rfl
@[simp] theorem tickTimers_faultOpcode : (tickTimers s).faultOpcode = s.faultOpcode := rfl
@[simp] theorem tickTimers_rnd : (tickTimers s).rnd = s.rnd := rfl
@[simp] theorem tickTimers_pending : (tickTimers s).pending = s.pending := rfl
@[simp] theorem tickTimers_cycles : (tickTimers s).cycles = s.cycles := rfl
@[simp] theorem tickTimers_loadOpen : (tickTimers s).loadOpen = s.loadOpen := rfl

/-! ## `beginCycle`. The start of a cycle takes the inputs and clears `dirty` (R83). -/

@[simp] theorem beginCycle_mem : (beginCycle s).mem = s.mem := rfl
@[simp] theorem beginCycle_V : (beginCycle s).V = s.V := rfl
@[simp] theorem beginCycle_I : (beginCycle s).I = s.I := rfl
@[simp] theorem beginCycle_pc : (beginCycle s).pc = s.pc := rfl
@[simp] theorem beginCycle_stack : (beginCycle s).stack = s.stack := rfl
@[simp] theorem beginCycle_sp : (beginCycle s).sp = s.sp := rfl
@[simp] theorem beginCycle_DT : (beginCycle s).DT = s.DT := rfl
@[simp] theorem beginCycle_ST : (beginCycle s).ST = s.ST := rfl
@[simp] theorem beginCycle_fb : (beginCycle s).fb = s.fb := rfl
@[simp] theorem beginCycle_waiting : (beginCycle s).waiting = s.waiting := rfl
@[simp] theorem beginCycle_waitReg : (beginCycle s).waitReg = s.waitReg := rfl
@[simp] theorem beginCycle_keypad : (beginCycle s).keypad = s.nextKeys := rfl
@[simp] theorem beginCycle_dirty : (beginCycle s).dirty = false := rfl
@[simp] theorem beginCycle_halted : (beginCycle s).halted = s.halted := rfl
@[simp] theorem beginCycle_faultCause : (beginCycle s).faultCause = s.faultCause := rfl
@[simp] theorem beginCycle_faultPc : (beginCycle s).faultPc = s.faultPc := rfl
@[simp] theorem beginCycle_faultOpcode : (beginCycle s).faultOpcode = s.faultOpcode := rfl
@[simp] theorem beginCycle_rnd : (beginCycle s).rnd = s.nextRnd := rfl
@[simp] theorem beginCycle_pending : (beginCycle s).pending = s.pending.tail := rfl
@[simp] theorem beginCycle_cycles : (beginCycle s).cycles = s.cycles + 1 := rfl
@[simp] theorem beginCycle_loadOpen : (beginCycle s).loadOpen = false := rfl

/-! ## `fbClear`. `FbClear` (R150). -/

@[simp] theorem fbClear_mem : s.fbClear.mem = s.mem := rfl
@[simp] theorem fbClear_V : s.fbClear.V = s.V := rfl
@[simp] theorem fbClear_I : s.fbClear.I = s.I := rfl
@[simp] theorem fbClear_pc : s.fbClear.pc = s.pc := rfl
@[simp] theorem fbClear_stack : s.fbClear.stack = s.stack := rfl
@[simp] theorem fbClear_sp : s.fbClear.sp = s.sp := rfl
@[simp] theorem fbClear_DT : s.fbClear.DT = s.DT := rfl
@[simp] theorem fbClear_ST : s.fbClear.ST = s.ST := rfl
@[simp] theorem fbClear_fb : s.fbClear.fb = Vector.replicate 32 0 := rfl
@[simp] theorem fbClear_waiting : s.fbClear.waiting = s.waiting := rfl
@[simp] theorem fbClear_waitReg : s.fbClear.waitReg = s.waitReg := rfl
@[simp] theorem fbClear_keypad : s.fbClear.keypad = s.keypad := rfl
@[simp] theorem fbClear_dirty : s.fbClear.dirty = true := rfl
@[simp] theorem fbClear_halted : s.fbClear.halted = s.halted := rfl
@[simp] theorem fbClear_faultCause : s.fbClear.faultCause = s.faultCause := rfl
@[simp] theorem fbClear_faultPc : s.fbClear.faultPc = s.faultPc := rfl
@[simp] theorem fbClear_faultOpcode : s.fbClear.faultOpcode = s.faultOpcode := rfl
@[simp] theorem fbClear_rnd : s.fbClear.rnd = s.rnd := rfl
@[simp] theorem fbClear_pending : s.fbClear.pending = s.pending := rfl
@[simp] theorem fbClear_cycles : s.fbClear.cycles = s.cycles := rfl
@[simp] theorem fbClear_loadOpen : s.fbClear.loadOpen = s.loadOpen := rfl

/-! ## `withDrawing`. `FbDraw` changes the pixels and `dirty` (R151). -/

@[simp] theorem withDrawing_mem (d : Drawing) : (s.withDrawing d).mem = s.mem := rfl
@[simp] theorem withDrawing_V (d : Drawing) : (s.withDrawing d).V = s.V := rfl
@[simp] theorem withDrawing_I (d : Drawing) : (s.withDrawing d).I = s.I := rfl
@[simp] theorem withDrawing_pc (d : Drawing) : (s.withDrawing d).pc = s.pc := rfl
@[simp] theorem withDrawing_stack (d : Drawing) : (s.withDrawing d).stack = s.stack := rfl
@[simp] theorem withDrawing_sp (d : Drawing) : (s.withDrawing d).sp = s.sp := rfl
@[simp] theorem withDrawing_DT (d : Drawing) : (s.withDrawing d).DT = s.DT := rfl
@[simp] theorem withDrawing_ST (d : Drawing) : (s.withDrawing d).ST = s.ST := rfl
@[simp] theorem withDrawing_fb (d : Drawing) : (s.withDrawing d).fb = d.fb := rfl
@[simp] theorem withDrawing_waiting (d : Drawing) : (s.withDrawing d).waiting = s.waiting := rfl
@[simp] theorem withDrawing_waitReg (d : Drawing) : (s.withDrawing d).waitReg = s.waitReg := rfl
@[simp] theorem withDrawing_keypad (d : Drawing) : (s.withDrawing d).keypad = s.keypad := rfl
@[simp] theorem withDrawing_dirty (d : Drawing) : (s.withDrawing d).dirty = true := rfl
@[simp] theorem withDrawing_halted (d : Drawing) : (s.withDrawing d).halted = s.halted := rfl
@[simp] theorem withDrawing_faultCause (d : Drawing) : (s.withDrawing d).faultCause = s.faultCause := rfl
@[simp] theorem withDrawing_faultPc (d : Drawing) : (s.withDrawing d).faultPc = s.faultPc := rfl
@[simp] theorem withDrawing_faultOpcode (d : Drawing) : (s.withDrawing d).faultOpcode = s.faultOpcode := rfl
@[simp] theorem withDrawing_rnd (d : Drawing) : (s.withDrawing d).rnd = s.rnd := rfl
@[simp] theorem withDrawing_pending (d : Drawing) : (s.withDrawing d).pending = s.pending := rfl
@[simp] theorem withDrawing_cycles (d : Drawing) : (s.withDrawing d).cycles = s.cycles := rfl
@[simp] theorem withDrawing_loadOpen (d : Drawing) : (s.withDrawing d).loadOpen = s.loadOpen := rfl

end Sys2Proof.Machine
end

