-- ==== Sys2Proof/Laws/Ops.lean ====
section
/-! SUPPORT. For each shared operation, once, everything it can do. -/

namespace Sys2Proof.Machine

variable {s s' : State}

/-! ## Registers -/

/-- Reading a register after one is written (R11). -/
theorem getV_setV (s : State) (x r : Reg) (v : Byte) : (s.setV x v).getV r = if r = x then v else s.getV r := by
  by_cases h : r = x
  · subst h; simp [State.getV, State.setV]
  · have hne : x.toNat ≠ r.toNat := fun e => h (BitVec.eq_of_toNat_eq e.symm)
    simp [State.getV, State.setV, h, hne]

/-- The written register reads as the value. -/
@[simp] theorem getV_setV_self (s : State) (x : Reg) (v : Byte) : (s.setV x v).getV x = v := by
  simp [getV_setV]

/-- A result and then a flag: VF holds the flag, whatever `x` is (R12). -/
theorem getV_setResultThenFlag (s : State) (x r : Reg) (v f : Byte) :
    (s.setResultThenFlag x v f).getV r = if r = VF then f else if r = x then v else s.getV r := by
  simp [State.setResultThenFlag, getV_setV]

/-- A result and a flag change `V` alone. -/
theorem setResultThenFlag_eq (s : State) (x : Reg) (v f : Byte) :
    s.setResultThenFlag x v f = { s with V := (s.setResultThenFlag x v f).V } := rfl

/-- A run of register writes changes `V` alone. -/
theorem setVFrom_eq (s : State) (j : Nat) (vs : List Byte) : s.setVFrom j vs = { s with V := (s.setVFrom j vs).V } := by
  induction vs generalizing s j with
  | nil => rfl
  | cons v vs ih => rw [State.setVFrom, ih]; rfl

/-- Reading a register after a run of register writes that ends at VF or below. -/
theorem getV_setVFrom (s : State) (j : Nat) (vs : List Byte) (h : j + vs.length ≤ 16) (r : Reg) :
    (s.setVFrom j vs).getV r =
      if j ≤ r.toNat ∧ r.toNat < j + vs.length then vs.getD (r.toNat - j) 0 else s.getV r := by
  induction vs generalizing s j with
  | nil =>
    have : ¬ (j ≤ r.toNat ∧ r.toNat < j + ([] : List Byte).length) := by simp
    rw [if_neg this]; rfl
  | cons v vs ih =>
    simp only [List.length_cons] at h
    rw [State.setVFrom, ih _ (j + 1) (by omega), getV_setV]
    have hj : (BitVec.ofNat 4 j).toNat = j := by rw [BitVec.toNat_ofNat]; omega
    simp only [List.length_cons]
    by_cases hr : r = BitVec.ofNat 4 j
    · have hrj : r.toNat = j := by rw [hr, hj]
      have h1 : ¬ (j + 1 ≤ r.toNat ∧ r.toNat < j + 1 + vs.length) := by omega
      have h2 : j ≤ r.toNat ∧ r.toNat < j + (vs.length + 1) := by omega
      rw [if_neg h1, if_pos hr, if_pos h2, hrj]
      simp
    · have hrj : r.toNat ≠ j := fun e => hr (BitVec.eq_of_toNat_eq (by rw [hj, e]))
      by_cases hin : j + 1 ≤ r.toNat ∧ r.toNat < j + 1 + vs.length
      · have h1 : j ≤ r.toNat ∧ r.toNat < j + (vs.length + 1) := by omega
        have h2 : r.toNat - j = (r.toNat - (j + 1)) + 1 := by omega
        rw [if_pos hin, if_pos h1, h2, List.getD_cons_succ]
      · have h1 : ¬ (j ≤ r.toNat ∧ r.toNat < j + (vs.length + 1)) := by omega
        rw [if_neg hin, if_neg h1, if_neg hr]

/-- `V[0]` to `V[x]` are `x + 1` bytes (R144). -/
@[simp] theorem length_regsUpTo (s : State) (x : Reg) : (s.regsUpTo x).length = x.toNat + 1 := by
  simp [State.regsUpTo]

/-- Three decimal digits (R143). -/
@[simp] theorem length_decimalDigits (v : Byte) : (decimalDigits v).length = 3 := rfl

/-! ## Memory access -/

/-- The bound check in the words of R43: no byte, or a highest address of at most 4095. -/
theorem inMemory_iff (a n : Nat) : inMemory a n = true ↔ n = 0 ∨ a + n - 1 ≤ 4095 := by
  simp [inMemory]

/-- What a load can do. -/
theorem loadBytes_cases (s : State) (a n : Nat) :
    (inMemory a n = true ∧ s.loadBytes a n = some (Memory.readBytes s.mem a n)) ∨
    (inMemory a n = false ∧ s.loadBytes a n = none) := by
  unfold State.loadBytes
  cases inMemory a n <;> simp

/-- What a store can do: it changes memory alone, or nothing. -/
theorem storeBytes_cases (s : State) (a : Nat) (vs : List Byte) :
    (inMemory a vs.length = true ∧ s.storeBytes a vs = some { s with mem := Memory.writeBytes s.mem a vs }) ∨
    (inMemory a vs.length = false ∧ s.storeBytes a vs = none) := by
  unfold State.storeBytes
  cases inMemory a vs.length <;> simp

/-- A store keeps memory canonical. -/
theorem storeBytes_wf {a : Nat} {vs : List Byte} (h : Memory.wf s.mem = true) (hs : s.storeBytes a vs = some s') :
    Memory.wf s'.mem = true := by
  obtain ⟨hin, he⟩ | ⟨_, he⟩ := storeBytes_cases s a vs
  · rw [he] at hs
    cases hs
    cases vs with
    | nil => exact h
    | cons v vs =>
      refine Memory.wf_writeBytes h ?_
      have := (inMemory_iff _ _).1 hin
      simp only [List.length_cons, Config.memSize] at this ⊢
      omega
  · rw [he] at hs; cases hs

/-! ## The call stack -/

/-- What a push can do (R19). -/
theorem push_cases (s : State) (v : Word) :
    (∃ h : s.sp.val < 16, s.push v = some { s with stack := s.stack.set s.sp.val v, sp := ⟨s.sp.val + 1, by omega⟩ }) ∨
    (s.sp.val = 16 ∧ s.push v = none) := by
  by_cases h : s.sp.val < 16
  · exact .inl ⟨h, by simp [State.push, h]⟩
  · exact .inr ⟨by omega, by simp [State.push, h]⟩

/-- What a pop can do (R19). -/
theorem pop_cases (s : State) :
    (∃ h : 0 < s.sp.val, s.pop = some (s.stack[s.sp.val - 1]'(by omega), { s with sp := ⟨s.sp.val - 1, by omega⟩ })) ∨
    (s.sp.val = 0 ∧ s.pop = none) := by
  by_cases h : 0 < s.sp.val
  · exact .inl ⟨h, by simp [State.pop, h]⟩
  · exact .inr ⟨by omega, by simp [State.pop, h]⟩

/-! ## The ends of an instruction and of a cycle -/

/-- A normal end. -/
@[simp] theorem finish_eq (e : PcEffect) (s : State) : finish e s = .next (applyEffect e s) := rfl

/-- A fault is a next state (R180). -/
@[simp] theorem raise_eq (c : FaultCause) (op : Word) (s : State) : raise c op s = .next (enterHalted c op s) := rfl

/-- The end of a cycle whose instruction ended normally. -/
theorem endCycle_running (h : s.halted = false) : endCycle (.next s) = .next (tickTimers s) := by simp [endCycle, h]

/-- The end of a cycle whose instruction raised a fault: no countdown (R180). -/
theorem endCycle_halted (h : s.halted = true) : endCycle (.next s) = .next s := by simp [endCycle, h]

/-- Countdown as a number: down by 1, and 0 stays 0 (R88). -/
theorem countDown_toNat (t : Byte) : (countDown t).toNat = t.toNat - 1 := by
  unfold countDown
  split
  · rw [BitVec.toNat_sub]; simp; omega
  · omega

/-- The least pressed key is pressed, and no key below it is (R84). -/
theorem leastKey_some {keys : Word} {k : BitVec 4} (h : leastKey keys = some k) :
    keys.getLsbD k.toNat = true ∧ ∀ j < k.toNat, keys.getLsbD j = false := by
  simp only [leastKey, Config.numKeys, Option.map_eq_some_iff] at h
  obtain ⟨n, hf, hk⟩ := h
  rw [List.find?_range_eq_some] at hf
  obtain ⟨h1, h2, h3⟩ := hf
  have hn : k.toNat = n := by
    rw [← hk, BitVec.toNat_ofNat]
    have := List.mem_range.1 h2
    omega
  rw [hn]
  refine ⟨h1, fun j hj => ?_⟩
  simpa using h3 j hj

/-- No key is found iff no key is pressed (R84). -/
theorem leastKey_none {keys : Word} : leastKey keys = none ↔ keys = 0 := by
  simp only [leastKey, Config.numKeys, Option.map_eq_none_iff, List.find?_eq_none, List.mem_range]
  constructor
  · intro h
    ext j hj
    simpa [BitVec.getLsbD_eq_getElem hj] using h j hj
  · rintro rfl j _
    simp

/-! ## Drawing -/

/-- Drawing a bit and then reading a pixel: that pixel is XORed with the bit, every other pixel is as before (R151). -/
theorem pixel_xorPixel (fb : FrameBuffer) (y x : Nat) (bit : Bool) (hy : y < 32) (hx : x < 64) (y' x' : Nat) :
    (fb.xorPixel y x bit).pixel y' x' = (fb.pixel y' x' ^^ (bit && decide (y' = y ∧ x' = x))) := by
  unfold FrameBuffer.xorPixel FrameBuffer.pixel
  cases bit with
  | false => simp
  | true =>
    by_cases hyy : y' = y
    · subst hyy
      by_cases hxx : x' = x
      · subst hxx
        simp [Vector.getD, hy, hx]
      · have : x ≠ x' := fun e => hxx e.symm
        simp [Vector.getD, hy, hxx, this, BitVec.getLsbD_twoPow]
    · have : y ≠ y' := fun e => hyy e.symm
      by_cases hb : y' < 32
      · simp [Vector.getD, hb, hyy, this]
      · simp [Vector.getD, hb, hyy]

end Sys2Proof.Machine
end

