-- ==== Sys2Proof/Laws/Decode.lean ====
section
/-! SUPPORT. The fields of a packed opcode (spec/30_encoding.md R61, R62), and the byte order of an opcode (R60). -/

namespace Sys2Proof

/-- `op = hi * 256 + lo` (R60). -/
theorem opcodeOfBytes_toNat (hi lo : Byte) : (opcodeOfBytes hi lo).toNat = hi.toNat * 256 + lo.toNat := by
  rw [opcodeOfBytes, BitVec.toNat_append, ← Nat.shiftLeft_add_eq_or_of_lt lo.isLt, Nat.shiftLeft_eq]

/-- Format NNN as a number (R61). -/
theorem packNnn_toNat (m : Nibble) (nnn : Addr) : (packNnn m nnn).toNat = m.toNat * 4096 + nnn.toNat := by
  rw [packNnn, BitVec.toNat_append, ← Nat.shiftLeft_add_eq_or_of_lt nnn.isLt, Nat.shiftLeft_eq]

/-- Formats XKK and X as a number (R61). -/
theorem packXkk_toNat (m x : Nibble) (kk : Byte) : (packXkk m x kk).toNat = m.toNat * 4096 + x.toNat * 256 + kk.toNat := by
  rw [packXkk, BitVec.toNat_append, ← Nat.shiftLeft_add_eq_or_of_lt kk.isLt, BitVec.toNat_append,
    ← Nat.shiftLeft_add_eq_or_of_lt x.isLt, Nat.shiftLeft_eq, Nat.shiftLeft_eq]
  omega

/-- Formats XY and XYN as a number (R61). -/
theorem packXyn_toNat (m x y n : Nibble) :
    (packXyn m x y n).toNat = m.toNat * 4096 + x.toNat * 256 + y.toNat * 16 + n.toNat := by
  rw [packXyn, BitVec.toNat_append, ← Nat.shiftLeft_add_eq_or_of_lt n.isLt, BitVec.toNat_append,
    ← Nat.shiftLeft_add_eq_or_of_lt y.isLt, BitVec.toNat_append, ← Nat.shiftLeft_add_eq_or_of_lt x.isLt,
    Nat.shiftLeft_eq, Nat.shiftLeft_eq, Nat.shiftLeft_eq]
  omega

/-- A field as a number. -/
theorem fieldMajor_toNat (op : Word) : (fieldMajor op).toNat = op.toNat / 4096 % 16 := by
  simp [fieldMajor, Nat.shiftRight_eq_div_pow]

/-- A field as a number. -/
theorem fieldX_toNat (op : Word) : (fieldX op).toNat = op.toNat / 256 % 16 := by
  simp [fieldX, Nat.shiftRight_eq_div_pow]

/-- A field as a number. -/
theorem fieldY_toNat (op : Word) : (fieldY op).toNat = op.toNat / 16 % 16 := by
  simp [fieldY, Nat.shiftRight_eq_div_pow]

/-- A field as a number. -/
theorem fieldN_toNat (op : Word) : (fieldN op).toNat = op.toNat % 16 := by
  simp [fieldN]

/-- A field as a number. -/
theorem fieldKk_toNat (op : Word) : (fieldKk op).toNat = op.toNat % 256 := by
  simp [fieldKk]

/-- A field as a number. -/
theorem fieldNnn_toNat (op : Word) : (fieldNnn op).toNat = op.toNat % 4096 := by
  simp [fieldNnn]

section Packed

variable (m x y n : Nibble) (kk : Byte) (nnn : Addr)

@[simp] theorem fieldMajor_packNnn : fieldMajor (packNnn m nnn) = m :=
  BitVec.eq_of_toNat_eq (by rw [fieldMajor_toNat, packNnn_toNat]; omega)

@[simp] theorem fieldNnn_packNnn : fieldNnn (packNnn m nnn) = nnn :=
  BitVec.eq_of_toNat_eq (by rw [fieldNnn_toNat, packNnn_toNat]; omega)

@[simp] theorem fieldMajor_packXkk : fieldMajor (packXkk m x kk) = m :=
  BitVec.eq_of_toNat_eq (by rw [fieldMajor_toNat, packXkk_toNat]; omega)

@[simp] theorem fieldX_packXkk : fieldX (packXkk m x kk) = x :=
  BitVec.eq_of_toNat_eq (by rw [fieldX_toNat, packXkk_toNat]; omega)

@[simp] theorem fieldKk_packXkk : fieldKk (packXkk m x kk) = kk :=
  BitVec.eq_of_toNat_eq (by rw [fieldKk_toNat, packXkk_toNat]; omega)

@[simp] theorem fieldMajor_packXyn : fieldMajor (packXyn m x y n) = m :=
  BitVec.eq_of_toNat_eq (by rw [fieldMajor_toNat, packXyn_toNat]; omega)

@[simp] theorem fieldX_packXyn : fieldX (packXyn m x y n) = x :=
  BitVec.eq_of_toNat_eq (by rw [fieldX_toNat, packXyn_toNat]; omega)

@[simp] theorem fieldY_packXyn : fieldY (packXyn m x y n) = y :=
  BitVec.eq_of_toNat_eq (by rw [fieldY_toNat, packXyn_toNat]; omega)

@[simp] theorem fieldN_packXyn : fieldN (packXyn m x y n) = n :=
  BitVec.eq_of_toNat_eq (by rw [fieldN_toNat, packXyn_toNat]; omega)

end Packed

/-- An opcode is its fields packed. -/
theorem packNnn_fields (op : Word) : packNnn (fieldMajor op) (fieldNnn op) = op :=
  BitVec.eq_of_toNat_eq (by rw [packNnn_toNat, fieldMajor_toNat, fieldNnn_toNat]; omega)

/-- An opcode is its fields packed. -/
theorem packXkk_fields (op : Word) : packXkk (fieldMajor op) (fieldX op) (fieldKk op) = op :=
  BitVec.eq_of_toNat_eq (by rw [packXkk_toNat, fieldMajor_toNat, fieldX_toNat, fieldKk_toNat]; omega)

/-- An opcode is its fields packed. -/
theorem packXyn_fields (op : Word) : packXyn (fieldMajor op) (fieldX op) (fieldY op) (fieldN op) = op :=
  BitVec.eq_of_toNat_eq (by rw [packXyn_toNat, fieldMajor_toNat, fieldX_toNat, fieldY_toNat, fieldN_toNat]; omega)

/-- AND of packed words, field by field. -/
theorem packNnn_and (m m' : Nibble) (a a' : Addr) : packNnn m a &&& packNnn m' a' = packNnn (m &&& m') (a &&& a') :=
  BitVec.and_append

/-- AND of packed words, field by field. -/
theorem packXkk_and (m m' x x' : Nibble) (k k' : Byte) :
    packXkk m x k &&& packXkk m' x' k' = packXkk (m &&& m') (x &&& x') (k &&& k') := by
  unfold packXkk
  rw [← BitVec.and_append, ← BitVec.and_append]

/-- AND of packed words, field by field. -/
theorem packXyn_and (m m' x x' y y' n n' : Nibble) :
    packXyn m x y n &&& packXyn m' x' y' n' = packXyn (m &&& m') (x &&& x') (y &&& y') (n &&& n') := by
  unfold packXyn
  rw [← BitVec.and_append, ← BitVec.and_append, ← BitVec.and_append]

/-- The bytes of an opcode give the opcode back (R60). -/
theorem opcodeOfBytes_bytes (op : Word) : opcodeOfBytes (op.extractLsb' 8 8) (op.extractLsb' 0 8) = op :=
  BitVec.eq_of_toNat_eq (by
    rw [opcodeOfBytes_toNat, BitVec.extractLsb'_toNat, BitVec.extractLsb'_toNat, Nat.shiftRight_eq_div_pow, Nat.shiftRight_eq_div_pow]
    omega)

/-- The byte decoder on the bytes of an opcode is the decoder of opcodes. -/
theorem decodeBytes_bytesOfOpcode (op : Word) (rest : List Byte) :
    decodeBytes (bytesOfOpcode op ++ rest) = .ok (decode op, rest) := by
  simp [bytesOfOpcode, decodeBytes, opcodeOfBytes_bytes]

end Sys2Proof
end

