-- ==== Sys2Proof/Laws/PerInstr.lean ====
section
/-! SUPPORT. Per instruction: the encoder against the opcode table (spec/30_encoding.md R64, spec/opcode_table.json). -/

namespace Sys2Proof.Laws

section Masks

/-- A field under a mask of ones. -/
theorem and_ones4 (v : Nibble) : v &&& 0xF#4 = v := BitVec.and_allOnes

/-- A field under a mask of ones. -/
theorem and_ones8 (v : Byte) : v &&& 0xFF#8 = v := BitVec.and_allOnes

variable (m x y n : Nibble) (kk : Byte) (nnn : Addr)

/-- A row of format NNN selects its words, whatever the address. -/
theorem selects_packNnn : (⟨packNnn 0xF 0, packNnn m 0⟩ : OpcodeRow).selects (packNnn m nnn) = true := by
  simp [OpcodeRow.selects, packNnn_and, and_ones4]

/-- A row of format XKK selects its words, whatever the register and the immediate. -/
theorem selects_packXkk : (⟨packXkk 0xF 0 0, packXkk m 0 0⟩ : OpcodeRow).selects (packXkk m x kk) = true := by
  simp [OpcodeRow.selects, packXkk_and, and_ones4]

/-- A row of format X selects its words, whatever the register. -/
theorem selects_packX : (⟨packXkk 0xF 0 0xFF, packXkk m 0 kk⟩ : OpcodeRow).selects (packXkk m x kk) = true := by
  simp [OpcodeRow.selects, packXkk_and, and_ones4, and_ones8]

/-- A row of format XY selects its words, whatever the registers. -/
theorem selects_packXy : (⟨packXyn 0xF 0 0 0xF, packXyn m 0 0 n⟩ : OpcodeRow).selects (packXyn m x y n) = true := by
  simp [OpcodeRow.selects, packXyn_and, and_ones4]

/-- A row of format XYN selects its words, whatever the registers and the count. -/
theorem selects_packXyn : (⟨packXyn 0xF 0 0 0, packXyn m 0 0 0⟩ : OpcodeRow).selects (packXyn m x y n) = true := by
  simp [OpcodeRow.selects, packXyn_and, and_ones4]

end Masks

/-- The word of a well-formed instruction has the fixed bits of the instruction's own row of the table. -/
def Encoding.Statement (i : Instr) : Prop :=
  i.wellFormed = true → ∃ r, opcodeRows[i.row]? = some r ∧ r.selects (encode i) = true

namespace Encoding

theorem cls : Statement (.cls) :=
  fun _ => ⟨⟨0xFFFF#16, 0x00E0#16⟩, rfl, rfl⟩
theorem ret : Statement (.ret) :=
  fun _ => ⟨⟨0xFFFF#16, 0x00EE#16⟩, rfl, rfl⟩
theorem jp (nnn : Addr) : Statement (.jp nnn) :=
  fun _ => ⟨⟨0xF000#16, 0x1000#16⟩, rfl, selects_packNnn 0x1 nnn⟩
theorem call (nnn : Addr) : Statement (.call nnn) :=
  fun _ => ⟨⟨0xF000#16, 0x2000#16⟩, rfl, selects_packNnn 0x2 nnn⟩
theorem seImm (x : Reg) (kk : Byte) : Statement (.seImm x kk) :=
  fun _ => ⟨⟨0xF000#16, 0x3000#16⟩, rfl, selects_packXkk 0x3 x kk⟩
theorem sneImm (x : Reg) (kk : Byte) : Statement (.sneImm x kk) :=
  fun _ => ⟨⟨0xF000#16, 0x4000#16⟩, rfl, selects_packXkk 0x4 x kk⟩
theorem seReg (x y : Reg) : Statement (.seReg x y) :=
  fun _ => ⟨⟨0xF00F#16, 0x5000#16⟩, rfl, selects_packXy 0x5 x y 0x0⟩
theorem ldImm (x : Reg) (kk : Byte) : Statement (.ldImm x kk) :=
  fun _ => ⟨⟨0xF000#16, 0x6000#16⟩, rfl, selects_packXkk 0x6 x kk⟩
theorem addImm (x : Reg) (kk : Byte) : Statement (.addImm x kk) :=
  fun _ => ⟨⟨0xF000#16, 0x7000#16⟩, rfl, selects_packXkk 0x7 x kk⟩
theorem ldReg (x y : Reg) : Statement (.ldReg x y) :=
  fun _ => ⟨⟨0xF00F#16, 0x8000#16⟩, rfl, selects_packXy 0x8 x y 0x0⟩
theorem orReg (x y : Reg) : Statement (.orReg x y) :=
  fun _ => ⟨⟨0xF00F#16, 0x8001#16⟩, rfl, selects_packXy 0x8 x y 0x1⟩
theorem andReg (x y : Reg) : Statement (.andReg x y) :=
  fun _ => ⟨⟨0xF00F#16, 0x8002#16⟩, rfl, selects_packXy 0x8 x y 0x2⟩
theorem xorReg (x y : Reg) : Statement (.xorReg x y) :=
  fun _ => ⟨⟨0xF00F#16, 0x8003#16⟩, rfl, selects_packXy 0x8 x y 0x3⟩
theorem addReg (x y : Reg) : Statement (.addReg x y) :=
  fun _ => ⟨⟨0xF00F#16, 0x8004#16⟩, rfl, selects_packXy 0x8 x y 0x4⟩
theorem subReg (x y : Reg) : Statement (.subReg x y) :=
  fun _ => ⟨⟨0xF00F#16, 0x8005#16⟩, rfl, selects_packXy 0x8 x y 0x5⟩
theorem shr (x y : Reg) : Statement (.shr x y) :=
  fun _ => ⟨⟨0xF00F#16, 0x8006#16⟩, rfl, selects_packXy 0x8 x y 0x6⟩
theorem subnReg (x y : Reg) : Statement (.subnReg x y) :=
  fun _ => ⟨⟨0xF00F#16, 0x8007#16⟩, rfl, selects_packXy 0x8 x y 0x7⟩
theorem shl (x y : Reg) : Statement (.shl x y) :=
  fun _ => ⟨⟨0xF00F#16, 0x800E#16⟩, rfl, selects_packXy 0x8 x y 0xE⟩
theorem sneReg (x y : Reg) : Statement (.sneReg x y) :=
  fun _ => ⟨⟨0xF00F#16, 0x9000#16⟩, rfl, selects_packXy 0x9 x y 0x0⟩
theorem ldI (nnn : Addr) : Statement (.ldI nnn) :=
  fun _ => ⟨⟨0xF000#16, 0xA000#16⟩, rfl, selects_packNnn 0xA nnn⟩
theorem jpV0 (nnn : Addr) : Statement (.jpV0 nnn) :=
  fun _ => ⟨⟨0xF000#16, 0xB000#16⟩, rfl, selects_packNnn 0xB nnn⟩
theorem rnd (x : Reg) (kk : Byte) : Statement (.rnd x kk) :=
  fun _ => ⟨⟨0xF000#16, 0xC000#16⟩, rfl, selects_packXkk 0xC x kk⟩
theorem drw (x y : Reg) (n : Nibble) : Statement (.drw x y n) :=
  fun _ => ⟨⟨0xF000#16, 0xD000#16⟩, rfl, selects_packXyn 0xD x y n⟩
theorem skp (x : Reg) : Statement (.skp x) :=
  fun _ => ⟨⟨0xF0FF#16, 0xE09E#16⟩, rfl, selects_packX 0xE x 0x9E⟩
theorem sknp (x : Reg) : Statement (.sknp x) :=
  fun _ => ⟨⟨0xF0FF#16, 0xE0A1#16⟩, rfl, selects_packX 0xE x 0xA1⟩
theorem ldVxDt (x : Reg) : Statement (.ldVxDt x) :=
  fun _ => ⟨⟨0xF0FF#16, 0xF007#16⟩, rfl, selects_packX 0xF x 0x07⟩
theorem ldVxK (x : Reg) : Statement (.ldVxK x) :=
  fun _ => ⟨⟨0xF0FF#16, 0xF00A#16⟩, rfl, selects_packX 0xF x 0x0A⟩
theorem ldDtVx (x : Reg) : Statement (.ldDtVx x) :=
  fun _ => ⟨⟨0xF0FF#16, 0xF015#16⟩, rfl, selects_packX 0xF x 0x15⟩
theorem ldStVx (x : Reg) : Statement (.ldStVx x) :=
  fun _ => ⟨⟨0xF0FF#16, 0xF018#16⟩, rfl, selects_packX 0xF x 0x18⟩
theorem addI (x : Reg) : Statement (.addI x) :=
  fun _ => ⟨⟨0xF0FF#16, 0xF01E#16⟩, rfl, selects_packX 0xF x 0x1E⟩
theorem ldF (x : Reg) : Statement (.ldF x) :=
  fun _ => ⟨⟨0xF0FF#16, 0xF029#16⟩, rfl, selects_packX 0xF x 0x29⟩
theorem ldB (x : Reg) : Statement (.ldB x) :=
  fun _ => ⟨⟨0xF0FF#16, 0xF033#16⟩, rfl, selects_packX 0xF x 0x33⟩
theorem ldMemVx (x : Reg) : Statement (.ldMemVx x) :=
  fun _ => ⟨⟨0xF0FF#16, 0xF055#16⟩, rfl, selects_packX 0xF x 0x55⟩
theorem ldVxMem (x : Reg) : Statement (.ldVxMem x) :=
  fun _ => ⟨⟨0xF0FF#16, 0xF065#16⟩, rfl, selects_packX 0xF x 0x65⟩
theorem nop (op : Word) : Statement (.nop op) :=
  fun _ => ⟨⟨0x0000#16, 0x0000#16⟩, rfl, by simp [OpcodeRow.selects]⟩

end Encoding

end Sys2Proof.Laws
end

