-- ==== Sys2Proof/Safety.lean ====
section
/-! DEFINITION. What counts as a safe run (spec/60_exceptions.md R180: "A model should treat `halted = 1` as a fault outcome that is never a final state of a correct run"),
and the invariant of the machine's states. -/

namespace Sys2Proof.Machine

/-- The three states of the engine (R91). -/
inductive Mode where
  /-- The source's initial state. -/
  | running
  /-- After `Fx0A`, until a key is pressed. -/
  | waitingForKey
  /-- After a fatal condition, until reset. -/
  | isHalted
  deriving DecidableEq, Repr

/-- The state the engine is in, a function of `halted` and `waiting` (R91). -/
def State.mode (s : State) : Mode := if s.halted then .isHalted else if s.waiting then .waitingForKey else .running

/-- A state no fatal condition has been met in. -/
def State.safe (s : State) : Bool := !s.halted

/-- `k` cycles from `s`, none of which meets a fatal condition. -/
def safeFor : Nat → State → Prop
  | 0, s => s.safe = true
  | k + 1, s => s.safe = true ∧ ∃ t, step s = .next t ∧ safeFor k t

/-- What holds of every state of a run: memory in canonical form; `pc` at most 0x10FE and every return address at most 0x1000 (R14, R16); Halted and WaitingForKey never
together (R91); the fault registers as R170 and R180 say: a cause iff Halted, and no fault address or opcode without one. -/
structure Invariant (s : State) : Prop where
  /-- Memory is canonical. -/
  memory : Memory.wf s.mem = true
  /-- R14. -/
  pcBound : s.pc.toNat ≤ 0x10FE
  /-- R16, R14. -/
  stackBound : ∀ j (h : j < 16), s.stack[j].toNat ≤ 0x1000
  /-- R91. -/
  modes : ¬ (s.halted = true ∧ s.waiting = true)
  /-- R170. -/
  cause : s.faultCause = .none ↔ s.halted = false
  /-- R27, R180: no fault, no record of one. -/
  record : s.halted = false → s.faultPc = 0 ∧ s.faultOpcode = 0
  /-- R180: the record is of the instruction `pc` still points at. -/
  stays : s.halted = true → s.faultPc = s.pc

end Sys2Proof.Machine
end

