-- ==== Sys2Proof/Certificates/Slice0/Obligations.lean ====
section
/-! DEFINITION. The statements about the model, from the numbered rules of spec/. Each says in its own arithmetic what a rule says; `t = { s with … }` is the frame:
every field not named there is as before. A rule that itself carries a decision D<n> or general knowledge GK<n> of the spec is stated as the rule has it. -/

open Sys2Proof Sys2Proof.Machine

namespace Sys2Proof.Spec

/-! ## Tables of the spec the statements are made over -/

/-- The table of R170 for the instructions: the fault an instruction raises in a state, `none` where it raises none. -/
def faultOf : Instr → State → FaultCause
  | .call _, s => if s.sp.val = 16 then .stackOverflow else .none
  | .ret, s => if s.sp.val = 0 then .stackUnderflow else .none
  | .drw _ _ n, s => if n.toNat > 0 ∧ s.I.toNat + n.toNat - 1 > 4095 then .memoryOutOfBounds else .none
  | .ldB _, s => if s.I.toNat + 2 > 4095 then .memoryOutOfBounds else .none
  | .ldMemVx x, s => if s.I.toNat + x.toNat > 4095 then .memoryOutOfBounds else .none
  | .ldVxMem x, s => if s.I.toNat + x.toNat > 4095 then .memoryOutOfBounds else .none
  | .skp x, s => if (s.getV x).toNat > 15 then .keyIndexOutOfRange else .none
  | .sknp x, s => if (s.getV x).toNat > 15 then .keyIndexOutOfRange else .none
  | _, _ => .none

/-- The list of R87: `pc` after an instruction that raises no fault, `pc` being the instruction's own address. -/
def pcAfter : Instr → State → Word
  | .ret, s => s.stack.getD (s.sp.val - 1) 0
  | .jp nnn, _ => BitVec.ofNat 16 nnn.toNat
  | .call nnn, _ => BitVec.ofNat 16 nnn.toNat
  | .jpV0 nnn, s => BitVec.ofNat 16 (nnn.toNat + (s.getV 0).toNat)
  | .seImm x kk, s => if s.getV x = kk then s.pc + 4 else s.pc + 2
  | .sneImm x kk, s => if s.getV x = kk then s.pc + 2 else s.pc + 4
  | .seReg x y, s => if s.getV x = s.getV y then s.pc + 4 else s.pc + 2
  | .sneReg x y, s => if s.getV x = s.getV y then s.pc + 2 else s.pc + 4
  | .skp x, s => if s.keypad.getLsbD (s.getV x).toNat then s.pc + 4 else s.pc + 2
  | .sknp x, s => if s.keypad.getLsbD (s.getV x).toNat then s.pc + 2 else s.pc + 4
  | _, s => s.pc + 2

/-- The general registers an instruction may write: its destination, and VF where it defines a flag (R12, R15). -/
def writesReg : Instr → Reg → Bool
  | .ldImm x _, r | .addImm x _, r | .ldReg x _, r | .orReg x _, r | .andReg x _, r | .xorReg x _, r | .rnd x _, r
  | .ldVxDt x, r => r == x
  | .addReg x _, r | .subReg x _, r | .shr x _, r | .subnReg x _, r | .shl x _, r => r == x || r == VF
  | .drw _ _ _, r => r == VF
  | .ldVxMem x, r => decide (r.toNat ≤ x.toNat)
  | _, _ => false

/-- The instructions that write memory (R40, R146). -/
def storesMemory : Instr → Bool
  | .ldB _ | .ldMemVx _ => true
  | _ => false

/-- The instructions that change pixels (R154). -/
def drawsPixels : Instr → Bool
  | .cls | .drw _ _ _ => true
  | _ => false

/-- The instructions that write the index register (R16). -/
def writesIndex : Instr → Bool
  | .ldI _ | .addI _ | .ldF _ => true
  | _ => false

/-- The instructions that read the key snapshot (R16). -/
def readsKeypad : Instr → Bool
  | .skp _ | .sknp _ => true
  | _ => false

/-- The instruction that reads the random byte (R80). -/
def readsRandom : Instr → Bool
  | .rnd _ _ => true
  | _ => false

/-- The bit of sprite row `r`, column `b` (0 leftmost) of a draw from the bytes at `I` (R151, R153). -/
def spriteBit (s : State) (r b : Nat) : Bool := (Memory.read s.mem (s.I.toNat + r)).getLsbD (7 - b)

/-- The origin coordinate a draw takes from a register, VF having been cleared first (R153, D14). -/
def originOf (s : State) (x : Reg) : Nat := if x = VF then 0 else (s.getV x).toNat

/-- The opcode of the instruction the next cycle would execute: Running and not fetching out of bounds (R85). -/
def runs (s : State) (i : Instr) : Prop :=
  s.halted = false ∧ s.waiting = false ∧ ∃ op, fetch s = some op ∧ decode op = i

end Sys2Proof.Spec

open Sys2Proof.Spec

/-! ## Reset and the host's side -/

/-- R27: the reset value of every state element, after power on and after a reset applied in any state. The values rest on D6, D10, D18, D19, D25 where R27 says so. -/
def Obligations.ResetGivesTheTabulatedValues : Prop :=
  ∀ s r : State, r = State.reset ∨ r = applyReset s →
    (∀ x, r.getV x = 0) ∧ r.I = 0 ∧ r.pc = 0x200 ∧ r.sp.val = 0 ∧ (∀ j (h : j < 16), r.stack[j] = 0) ∧
    r.DT = 0 ∧ r.ST = 0 ∧ (∀ y x, y < 32 → x < 64 → r.fb.pixel y x = false) ∧ r.dirty = false ∧
    r.waiting = false ∧ r.waitReg = 0 ∧ r.keypad = 0 ∧ r.halted = false ∧
    r.faultCause.code = 0 ∧ r.faultPc = 0 ∧ r.faultOpcode = 0 ∧
    (∀ a, a < 80 → Config.fontRom[a]? = some (Memory.read r.mem a)) ∧
    (∀ a, 0x50 ≤ a → a ≤ 0xFFF → Memory.read r.mem a = 0)

/-- R51: a program of at most 3584 bytes is copied verbatim to 0x200 and nothing else changes; a longer one is rejected; a load after a load or after a cycle is not
admitted until the next reset (D27). The flag `loadOpen` that records this is the model's own (log 8). -/
def Obligations.ProgramLoadCopiesVerbatimOrIsRejected : Prop :=
  ∀ (s : State) (prog : List Byte), Memory.wf s.mem = true → s.loadOpen = true →
    (prog.length ≤ 3584 → ∃ t, loadProgram prog s = .ok t ∧ t = { s with mem := t.mem, loadOpen := false } ∧
      (∀ j (h : j < prog.length), Memory.read t.mem (0x200 + j) = prog[j]) ∧
      (∀ a, ¬ (0x200 ≤ a ∧ a < 0x200 + prog.length) → Memory.read t.mem a = Memory.read s.mem a) ∧
      (∀ again, loadProgram again t = .error .notAdmitted)) ∧
    (prog.length > 3584 → loadProgram prog s = .error .programTooLarge) ∧
    (∀ t, step s = .next t → loadProgram prog t = .error .notAdmitted) ∧ (applyReset s).loadOpen = true

/-- R201: the first instruction executed after reset and load is the first two bytes of the program. -/
def Obligations.LoadedProgramIsFetchedFirst : Prop :=
  ∀ (hi lo : Byte) (rest : List Byte) (t : State), loadProgram (hi :: lo :: rest) State.reset = .ok t →
    step t = endCycle (exec (decode (BitVec.ofNat 16 (hi.toNat * 256 + lo.toNat))) (beginCycle t))

/-- R201: with no program the machine runs no-ops from 0x200 for 1792 cycles, then the fetch at 0x1000 halts it, whatever the inputs are. -/
def Obligations.NoProgramRunsNoOpsThenHalts : Prop :=
  (∀ k ≤ 1792, ∃ t, Host.Core.run Sys2Proof.core k State.reset = .next t ∧ t.pc.toNat = 0x200 + 2 * k ∧
    t.halted = false ∧ t.V = State.reset.V ∧ t.mem = State.reset.mem ∧ t.fb = State.reset.fb) ∧
  (∃ t, Host.Core.run Sys2Proof.core 1793 State.reset = .next t ∧ t.halted = true ∧ t.pc = 0x1000 ∧
    t.faultCause = .fetchOutOfBounds ∧ t.faultPc = 0x1000 ∧ t.faultOpcode = 0)

/-- R24, R89: the outputs of a cycle are read off the state at its end. -/
def Obligations.OutputsAreReadOffTheState : Prop :=
  ∀ t : State,
    (∀ y x, (outputs t).fbOut.pixel y x = t.fb.pixel y x) ∧ (outputs t).fbChanged = t.dirty ∧
    ((outputs t).beep = true ↔ t.ST.toNat > 0) ∧ (outputs t).faultValid = t.halted ∧
    (outputs t).faultCause = t.faultCause.code ∧ (outputs t).faultPc = t.faultPc ∧ (outputs t).faultOpcode = t.faultOpcode

/-! ## Encoding -/

/-- Words written out from the patterns of R64, one or more of each family, decode to the instructions they stand for. -/
def Obligations.SpecWordsDecode : Prop :=
  decode 0x00E0 = .cls ∧ decode 0x00EE = .ret ∧ decode 0x1ABC = .jp 0xABC ∧ decode 0x2210 = .call 0x210 ∧
  decode 0x3A07 = .seImm 0xA 0x07 ∧ decode 0x9340 = .sneReg 3 4 ∧ decode 0x8014 = .addReg 0 1 ∧
  decode 0x8ABE = .shl 0xA 0xB ∧ decode 0xA20E = .ldI 0x20E ∧ decode 0xFA33 = .ldB 0xA ∧ decode 0xD012 = .drw 0 1 2 ∧
  decode 0xE39E = .skp 3 ∧ decode 0xF315 = .ldDtVx 3 ∧ decode 0x5011 = .nop 0x5011

/-- Decoding the word of a well-formed instruction gives it back, every operand at every value. -/
def Obligations.DecodeOfEncodeIsTheInstruction : Prop :=
  ∀ i : Instr, i.wellFormed = true → decode (encode i) = i

/-- Encoding what an opcode decodes to gives the opcode back, and the decoder gives well-formed instructions only: no bit of any opcode is lost. -/
def Obligations.EncodeOfDecodeIsTheOpcode : Prop :=
  ∀ op : Word, encode (decode op) = op ∧ (decode op).wellFormed = true

/-- R65: every opcode decodes to the row of the table that is first selected by it; at most one of the 34 rows selects it; `8xy6` and `8xyE` ignore `y`. -/
def Obligations.DecodeTakesTheFirstSelectedRow : Prop :=
  (∀ op : Word, opcodeRows.findIdx? (·.selects op) = some (decode op).row) ∧
  (∀ (op : Word) (j k : Nat) (p q : OpcodeRow), j < 34 → k < 34 → opcodeRows[j]? = some p → opcodeRows[k]? = some q →
    p.selects op = true → q.selects op = true → j = k) ∧
  (∀ x y y' s, exec (.shr x y) s = exec (.shr x y') s ∧ exec (.shl x y) s = exec (.shl x y') s)

/-- R66 (a) to (f), a list the spec derives: the opcodes that decode to the no-op are exactly these. -/
def Obligations.NoOpsAreTheUnmatchedOpcodes : Prop :=
  ∀ op : Word, (decode op = .nop op ↔
    (fieldMajor op = 0 ∧ op ≠ 0x00E0 ∧ op ≠ 0x00EE) ∨
    (fieldMajor op = 5 ∧ fieldN op ≠ 0) ∨
    (fieldMajor op = 8 ∧ (fieldN op).toNat ≥ 8 ∧ fieldN op ≠ 0xE) ∨
    (fieldMajor op = 9 ∧ fieldN op ≠ 0) ∨
    (fieldMajor op = 0xE ∧ fieldKk op ≠ 0x9E ∧ fieldKk op ≠ 0xA1) ∨
    (fieldMajor op = 0xF ∧ fieldKk op ∉ [0x07, 0x0A, 0x15, 0x18, 0x1E, 0x29, 0x33, 0x55, 0x65])) ∧
  (∀ w, decode op = .nop w → w = op)

/-! ## The cycle -/

/-- A Running cycle whose two bytes at `pc`, the first one the high byte, decode to an instruction is `exec` of it, after the inputs are latched and before the timers count
down; after a fault they do not (R81, R83, R85, R45, R88). The last four fields of `beginCycle` are the model's own (log 1, log 2, log 8). -/
def Obligations.StepRunsTheDecodedInstruction : Prop :=
  ∀ (s : State) (i : Instr), s.halted = false → s.waiting = false → s.pc.toNat + 1 ≤ 4095 →
    decode (BitVec.ofNat 16 ((Memory.read s.mem s.pc.toNat).toNat * 256 + (Memory.read s.mem (s.pc.toNat + 1)).toNat)) = i →
    step s = endCycle (exec i (beginCycle s)) ∧
    beginCycle s = { s with
      keypad := s.nextKeys, dirty := false
      rnd := s.nextRnd, pending := s.pending.tail, cycles := s.cycles + 1, loadOpen := false } ∧
    ∀ t, exec i (beginCycle s) = .next t →
      step s = .next (if t.halted then t else
        { t with DT := if t.DT = 0 then 0 else t.DT - 1, ST := if t.ST = 0 then 0 else t.ST - 1 })

/-- R83, R80: in every cycle, whatever the state, the key latch takes the cycle's `keys`. That the inputs are the first of `pending`, which is then used up, is the model's choice
(log 1). That `dirty` is 1 at the end iff `00E0` or a `Dxyn` without a fault was executed (D10) is a sentence R154 marks as derived. -/
def Obligations.EveryCycleLatchesKeysAndClearsDirty : Prop :=
  ∀ s t : State, step s = .next t →
    t.keypad = s.nextKeys ∧
    (∀ input rest, s.pending = input :: rest → s.nextKeys = input.keys ∧ s.nextRnd = input.rnd ∧ t.pending = rest) ∧
    (t.dirty = true ↔ ∃ i, runs s i ∧ drawsPixels i = true ∧ t.halted = false)

/-- R171: a Running cycle with `pc >= 0xFFF` halts with cause 1, opcode 0, and reads nothing; `pc` stays. -/
def Obligations.FetchPastTheEndHalts : Prop :=
  ∀ s : State, s.halted = false → s.waiting = false → s.pc.toNat ≥ 0xFFF →
    step s = .next { beginCycle s with
      halted := true, faultCause := .fetchOutOfBounds, faultPc := s.pc, faultOpcode := 0 } ∧
    FaultCause.fetchOutOfBounds.code = 1

/-- R82: a Halted cycle latches the keys and clears `dirty` and changes nothing else of the engine; the outputs keep their values but `fb_changed`. The model's own fields take the
cycle's inputs as in any cycle (log 1). -/
def Obligations.HaltedCycleChangesNothingElse : Prop :=
  ∀ s : State, s.halted = true → ∃ t, step s = .next t ∧
    t = { s with keypad := s.nextKeys, dirty := false, rnd := t.rnd, pending := t.pending, cycles := t.cycles, loadOpen := t.loadOpen } ∧
    outputs t = { outputs s with fbChanged := false }

/-- R84: a cycle that begins waiting executes nothing. With no key down nothing changes; else the least pressed key goes to the waiting register and the wait ends; `pc`, the
timers and all else stay. -/
def Obligations.WaitCycleTakesTheLeastKey : Prop :=
  ∀ s : State, s.halted = false → s.waiting = true →
    (s.nextKeys = 0 → step s = .next (beginCycle s)) ∧
    (∀ k : BitVec 4, s.nextKeys.getLsbD k.toNat = true → (∀ j < k.toNat, s.nextKeys.getLsbD j = false) →
      ∃ t, step s = .next t ∧ t = { beginCycle s with V := t.V, waiting := false } ∧
        ∀ r, t.getV r = if r = s.waitReg then BitVec.ofNat 8 k.toNat else s.getV r) ∧
    (s.nextKeys ≠ 0 → ∃ k : BitVec 4, s.nextKeys.getLsbD k.toNat = true ∧ ∀ j < k.toNat, s.nextKeys.getLsbD j = false)

/-- R88: each timer above 0 counts down once after the instruction of a Running cycle, and in no other cycle; so `Fx07` reads the value from before it, and `Fx15`, `Fx18` lose one
count in their own cycle. -/
def Obligations.TimersCountDownAfterTheInstruction : Prop :=
  (∀ (s u : State) (i : Instr), runs s i → exec i (beginCycle s) = .next u →
    (u.halted = true → step s = .next u ∧ u.DT = s.DT ∧ u.ST = s.ST) ∧
    (u.halted = false → ∃ t, step s = .next t ∧ t = { u with DT := t.DT, ST := t.ST } ∧
      t.DT.toNat = u.DT.toNat - 1 ∧ t.ST.toNat = u.ST.toNat - 1)) ∧
  (∀ s t : State, s.halted = true ∨ s.waiting = true → step s = .next t → t.DT = s.DT ∧ t.ST = s.ST) ∧
  (∀ (s t : State) (x : Reg), step s = .next t →
    (runs s (.ldVxDt x) → t.getV x = s.DT) ∧
    (runs s (.ldDtVx x) → t.DT.toNat = (s.getV x).toNat - 1) ∧
    (runs s (.ldStVx x) → t.ST.toNat = (s.getV x).toNat - 1 ∧ ((s.getV x).toNat = 1 → (outputs t).beep = false)))

/-- R92: there is no terminal state; from every state every number of cycles can be issued. -/
def Obligations.EveryCycleHasANextState : Prop :=
  (∀ s : State, ∃ t, step s = .next t) ∧ (∀ (k : Nat) (s : State), ∃ t, Host.Core.run Sys2Proof.core k s = .next t)

/-- R91: the engine is in exactly one of three states; what leads from one to another is `Fx0A`, a pressed key, a fault, and reset. -/
def Obligations.ModesChangeOnlyAsTabulated : Prop :=
  ∀ s t : State, ¬ (s.halted = true ∧ s.waiting = true) → step s = .next t →
    ¬ (t.halted = true ∧ t.waiting = true) ∧
    (s.mode = .isHalted → t.mode = .isHalted) ∧
    (s.mode = .waitingForKey → t.mode = if s.nextKeys = 0 then .waitingForKey else .running) ∧
    (s.mode = .running → (t.mode = .waitingForKey ↔ ∃ x, runs s (.ldVxK x))) ∧
    (s.mode = .running → (t.mode = .isHalted ↔ s.pc.toNat ≥ 0xFFF ∨ ∃ i, runs s i ∧ faultOf i (beginCycle s) ≠ .none)) ∧
    (applyReset s).mode = .running ∧ State.reset.mode = .running

/-- R181: Halted is left by reset alone, and the fault registers keep the first fault until then. -/
def Obligations.HaltedLastsUntilReset : Prop :=
  ∀ (k : Nat) (s : State), s.halted = true →
    (∃ t, Host.Core.run Sys2Proof.core k s = .next t ∧ t.halted = true ∧
      t = { s with
        keypad := t.keypad, dirty := t.dirty
        rnd := t.rnd, pending := t.pending, cycles := t.cycles, loadOpen := t.loadOpen }) ∧
    (applyReset s).halted = false ∧ (applyReset s).faultCause = .none ∧ (applyReset s).faultPc = 0 ∧ (applyReset s).faultOpcode = 0

/-- R188, R84: while no key is pressed the wait goes on, and `pc`, the target register, the timers and all else of the engine are retained. The supplied inputs are the model's form
of the host (log 1). -/
def Obligations.WaitLastsWhileNoKeyIsPressed : Prop :=
  ∀ (k : Nat) (s : State), s.halted = false → s.waiting = true → k ≤ s.pending.length →
    (∀ input ∈ s.pending.take k, input.keys = 0) →
    ∃ t, Host.Core.run Sys2Proof.core k s = .next t ∧
      t = { s with
        keypad := t.keypad, dirty := t.dirty
        rnd := t.rnd, pending := s.pending.drop k, cycles := s.cycles + k, loadOpen := t.loadOpen }

/-- The invariant of Safety.lean (canonical memory, the bounds of R14, the modes of R91, the fault registers of R170 and R180) holds after reset, and a program load keeps it. -/
def Obligations.InvariantHoldsAtResetAndAfterLoad : Prop :=
  Invariant State.reset ∧ (∀ s, Invariant (applyReset s)) ∧
  (∀ prog s t, Invariant s → loadProgram prog s = .ok t → Invariant t)

/-- Every step keeps the invariant, from every state that has it. -/
def Obligations.InvariantIsKeptByEveryStep : Prop :=
  ∀ s t : State, Invariant s → step s = .next t → Invariant t

/-- A jump to its own address never meets a fatal condition and stays there, however many cycles are issued and whatever the inputs (R92's idle loop). -/
def Obligations.IdleLoopIsSafeForEver : Prop :=
  ∀ (k : Nat) (s : State) (nnn : Addr), s.halted = false → s.waiting = false → s.pc.toNat = nnn.toNat → nnn.toNat ≤ 0xFFE →
    fetch s = some (packNnn 0x1 nnn) →
    safeFor k s ∧ ∃ t, Host.Core.run Sys2Proof.core k s = .next t ∧ t.pc = s.pc ∧ t.V = s.V ∧ t.mem = s.mem ∧
      t.DT.toNat = s.DT.toNat - k ∧ t.ST.toNat = s.ST.toNat - k

/-! ## Faults -/

/-- R172 to R175, R180 (D5, D6, D15): under the tabulated condition an instruction raises its fault, and then it writes the four fault elements and nothing else: `pc` stays, no
register, memory byte, stack entry or timer changes; in the whole cycle no more than the writes at its start is added. -/
def Obligations.FaultsAreTakenAsTabulatedAndPrecise : Prop :=
  (∀ (i : Instr) (s : State), faultOf i s ≠ .none →
    exec i s = .next { s with halted := true, faultCause := faultOf i s, faultPc := s.pc, faultOpcode := encode i }) ∧
  (∀ (s : State) (op : Word), s.halted = false → s.waiting = false → fetch s = some op → faultOf (decode op) (beginCycle s) ≠ .none →
    step s = .next { beginCycle s with
      halted := true, faultCause := faultOf (decode op) (beginCycle s), faultPc := s.pc, faultOpcode := op }) ∧
  FaultCause.none.code = 0 ∧ FaultCause.stackOverflow.code = 2 ∧ FaultCause.stackUnderflow.code = 3 ∧
  FaultCause.memoryOutOfBounds.code = 4 ∧ FaultCause.keyIndexOutOfRange.code = 5

/-- R87 (and R177): an instruction under no tabulated condition completes: it raises nothing and `pc` ends as its PC effect says; one that raises a fault applies no effect. -/
def Obligations.EveryOtherInstructionCompletes : Prop :=
  ∀ (i : Instr) (s : State),
    (faultOf i s = .none → ∃ t, exec i s = .next t ∧ t.pc = pcAfter i s ∧
      t.halted = s.halted ∧ t.faultCause = s.faultCause ∧ t.faultPc = s.faultPc ∧ t.faultOpcode = s.faultOpcode) ∧
    (faultOf i s ≠ .none → ∃ t, exec i s = .next t ∧ t.pc = s.pc)

/-! ## Frames and whole-machine rules -/

/-- R11, R12, R15, R16, R40, R154: what each instruction leaves unchanged. -/
def Obligations.EveryInstructionKeepsWhatItDoesNotWrite : Prop :=
  ∀ (i : Instr) (s t : State), exec i s = .next t →
    (∀ r, writesReg i r = false → t.getV r = s.getV r) ∧
    (writesIndex i = false → t.I = s.I) ∧
    (i ≠ .ret → (∀ n, i ≠ .call n) → t.sp = s.sp) ∧ ((∀ n, i ≠ .call n) → t.stack = s.stack) ∧
    ((∀ x, i ≠ .ldDtVx x) → t.DT = s.DT) ∧ ((∀ x, i ≠ .ldStVx x) → t.ST = s.ST) ∧
    ((∀ x, i ≠ .ldVxK x) → t.waiting = s.waiting ∧ t.waitReg = s.waitReg) ∧
    (drawsPixels i = false → t.fb = s.fb ∧ t.dirty = s.dirty) ∧
    (storesMemory i = false → ∀ a, Memory.read t.mem a = Memory.read s.mem a) ∧
    t.keypad = s.keypad ∧ t.rnd = s.rnd ∧ t.pending = s.pending ∧ t.cycles = s.cycles ∧ t.loadOpen = s.loadOpen

/-- C6, R40, R146: in a whole cycle, memory changes only where it executes `Fx33` or `Fx55`. -/
def Obligations.OnlyTheTwoStoresChangeMemory : Prop :=
  ∀ s t : State, step s = .next t → t.mem ≠ s.mem → ∃ i, runs s i ∧ storesMemory i = true

/-- R154: in a whole cycle, pixels change only where it executes `00E0` or `Dxyn`, and `fb_changed` is 1 iff it executed one of them without a fault. -/
def Obligations.OnlyDisplayInstructionsChangePixels : Prop :=
  ∀ s t : State, step s = .next t →
    (t.fb ≠ s.fb → ∃ i, runs s i ∧ drawsPixels i = true) ∧
    ((outputs t).fbChanged = true ↔ ∃ i, runs s i ∧ drawsPixels i = true ∧ t.halted = false)

/-- R80, R16: an instruction but `Cxkk` does the same whatever the random byte is, and an instruction but `Ex9E`, `ExA1` does the same whatever the keys are. -/
def Obligations.InputsAreReadOnlyWhereNamed : Prop :=
  ∀ (i : Instr) (s t : State), exec i s = .next t →
    (readsRandom i = false → ∀ b, exec i { s with rnd := b } = .next { t with rnd := b }) ∧
    (readsKeypad i = false → ∀ k, exec i { s with keypad := k } = .next { t with keypad := k })

/-- R50: bytes stored by `Fx55` are what a fetch from them reads, with nothing done in between. -/
def Obligations.StoredBytesAreFetched : Prop :=
  ∀ (s t : State) (x : Reg) (j : Nat), Memory.wf s.mem = true → s.I.toNat + x.toNat ≤ 4095 → j + 1 ≤ x.toNat →
    exec (.ldMemVx x) s = .next t →
    fetch { t with pc := BitVec.ofNat 16 (s.I.toNat + j) } =
      some (BitVec.ofNat 16 ((s.getV (BitVec.ofNat 4 j)).toNat * 256 + (s.getV (BitVec.ofNat 4 (j + 1))).toNat))

/-- Memories in canonical form that read alike at every address are the same data. -/
def Obligations.CanonicalMemoriesThatReadAlikeAreEqual : Prop :=
  ∀ m m' : Memory, Memory.wf m = true → Memory.wf m' = true → (∀ a, Memory.read m a = Memory.read m' a) → m = m'

/-! ## Control transfer (41_flow.md) and the no-op -/

/-- R90: an unmatched opcode advances `pc` by 2 and writes nothing else; its cycle counts the timers down. The words are the rule's own. -/
def Obligations.NopOnlyAdvances : Prop :=
  (∀ (op : Word) (s : State), exec (.nop op) s = .next { s with pc := s.pc + 2 }) ∧
  (∀ (op : Word) (s : State), runs s (.nop op) → ∃ t, step s = .next t ∧
    t = { beginCycle s with pc := s.pc + 2, DT := t.DT, ST := t.ST } ∧
    t.DT.toNat = s.DT.toNat - 1 ∧ t.ST.toNat = s.ST.toNat - 1) ∧
  decode 0x0000 = .nop 0x0000 ∧ decode 0x00E1 = .nop 0x00E1 ∧ decode 0x5011 = .nop 0x5011 ∧ decode 0x8018 = .nop 0x8018 ∧
  decode 0xE000 = .nop 0xE000 ∧ decode 0xF000 = .nop 0xF000 ∧ decode 0xFFFF = .nop 0xFFFF ∧
  (∀ nnn : Addr, nnn ≠ 0x0E0 → nnn ≠ 0x0EE → decode (packNnn 0x0 nnn) = .nop (packNnn 0x0 nnn))

/-- R100: return pops the top entry into `pc`, unmasked; on an empty stack it raises StackUnderflow and writes nothing. -/
def Obligations.ReturnPopsIntoPc : Prop :=
  ∀ s : State, decode 0x00EE = .ret ∧
    (∀ j (h : j < 16), s.sp.val = j + 1 → ∃ t, exec .ret s = .next t ∧
      t = { s with pc := s.stack[j], sp := t.sp } ∧ t.sp.val = j) ∧
    (s.sp.val = 0 → exec .ret s = .next { s with
      halted := true, faultCause := .stackUnderflow, faultPc := s.pc, faultOpcode := 0x00EE })

/-- R101: jump to the absolute address. -/
def Obligations.JumpSetsPc : Prop :=
  ∀ (nnn : Addr) (s : State), decode (packNnn 0x1 nnn) = .jp nnn ∧
    ∃ t, exec (.jp nnn) s = .next t ∧ t = { s with pc := t.pc } ∧ t.pc.toNat = nnn.toNat

/-- R102: call pushes `pc + 2` and jumps; with 16 entries on the stack it raises StackOverflow and writes nothing. -/
def Obligations.CallPushesTheNextAddress : Prop :=
  ∀ (nnn : Addr) (s : State), decode (packNnn 0x2 nnn) = .call nnn ∧
    (s.sp.val < 16 → ∃ t, exec (.call nnn) s = .next t ∧
      t = { s with pc := t.pc, sp := t.sp, stack := t.stack } ∧ t.pc.toNat = nnn.toNat ∧ t.sp.val = s.sp.val + 1 ∧
      ∀ j (h : j < 16), t.stack[j] = if j = s.sp.val then s.pc + 2 else s.stack[j]) ∧
    (s.sp.val = 16 → exec (.call nnn) s = .next { s with
      halted := true, faultCause := .stackOverflow, faultPc := s.pc, faultOpcode := packNnn 0x2 nnn })

/-- R100, R102: a return after a call, in any state with the call's stack, goes to the instruction after the call and restores the depth. -/
def Obligations.ReturnAfterCallComesBack : Prop :=
  ∀ (nnn : Addr) (s t u : State), s.sp.val < 16 → exec (.call nnn) s = .next t → u.stack = t.stack → u.sp = t.sp →
    ∃ v, exec .ret u = .next v ∧ v.pc = s.pc + 2 ∧ v.sp = s.sp

/-- R103: the target is `nnn + V0`, not reduced, and the offset register is V0 whatever `nnn` is. -/
def Obligations.JumpWithOffsetAddsV0 : Prop :=
  ∀ (nnn : Addr) (s : State), decode (packNnn 0xB nnn) = .jpV0 nnn ∧
    ∃ t, exec (.jpV0 nnn) s = .next t ∧ t = { s with pc := t.pc } ∧ t.pc.toNat = nnn.toNat + (s.getV 0).toNat

/-- R104, R105 (which member tests what is GK1): skip over the next instruction on equal, on not equal, to the immediate. -/
def Obligations.ImmediateSkipsCompare : Prop :=
  ∀ (x : Reg) (kk : Byte) (s : State),
    decode (packXkk 0x3 x kk) = .seImm x kk ∧ decode (packXkk 0x4 x kk) = .sneImm x kk ∧
    exec (.seImm x kk) s = .next { s with pc := if s.getV x = kk then s.pc + 4 else s.pc + 2 } ∧
    exec (.sneImm x kk) s = .next { s with pc := if s.getV x ≠ kk then s.pc + 4 else s.pc + 2 }

/-- R106, R107 (which member tests what is GK1): skip on equal, on different, registers; with another minor code the word is unmatched. -/
def Obligations.RegisterSkipsCompare : Prop :=
  ∀ (x y : Reg) (s : State),
    decode (packXyn 0x5 x y 0) = .seReg x y ∧ decode (packXyn 0x9 x y 0) = .sneReg x y ∧
    exec (.seReg x y) s = .next { s with pc := if s.getV x = s.getV y then s.pc + 4 else s.pc + 2 } ∧
    exec (.sneReg x y) s = .next { s with pc := if s.getV x ≠ s.getV y then s.pc + 4 else s.pc + 2 } ∧
    (∀ n, n ≠ 0 → decode (packXyn 0x5 x y n) = .nop (packXyn 0x5 x y n) ∧ decode (packXyn 0x9 x y n) = .nop (packXyn 0x9 x y n))

/-! ## The ALU (42_alu.md) -/

/-- R121, R122: load immediate, and add immediate modulo 256 without a flag (D13): the destination changes and nothing else but `pc`. -/
def Obligations.ImmediateLoadAndAdd : Prop :=
  ∀ (x : Reg) (kk : Byte) (s : State),
    decode (packXkk 0x6 x kk) = .ldImm x kk ∧ decode (packXkk 0x7 x kk) = .addImm x kk ∧
    (∃ t, exec (.ldImm x kk) s = .next t ∧ t = { s with V := t.V, pc := s.pc + 2 } ∧
      t.getV x = kk ∧ ∀ r, r ≠ x → t.getV r = s.getV r) ∧
    (∃ t, exec (.addImm x kk) s = .next t ∧ t = { s with V := t.V, pc := s.pc + 2 } ∧
      (t.getV x).toNat = ((s.getV x).toNat + kk.toNat) % 256 ∧ ∀ r, r ≠ x → t.getV r = s.getV r)

/-- R123 to R126 (minor codes GK2): copy, OR, AND, XOR, bit by bit and without a flag (D13). -/
def Obligations.CopyAndLogic : Prop :=
  ∀ (x y : Reg) (s : State),
    decode (packXyn 0x8 x y 0) = .ldReg x y ∧ decode (packXyn 0x8 x y 1) = .orReg x y ∧
    decode (packXyn 0x8 x y 2) = .andReg x y ∧ decode (packXyn 0x8 x y 3) = .xorReg x y ∧
    (∃ t, exec (.ldReg x y) s = .next t ∧ t = { s with V := t.V, pc := s.pc + 2 } ∧
      t.getV x = s.getV y ∧ ∀ r, r ≠ x → t.getV r = s.getV r) ∧
    (∃ t, exec (.orReg x y) s = .next t ∧ t = { s with V := t.V, pc := s.pc + 2 } ∧
      (∀ b < 8, (t.getV x).getLsbD b = ((s.getV x).getLsbD b || (s.getV y).getLsbD b)) ∧ ∀ r, r ≠ x → t.getV r = s.getV r) ∧
    (∃ t, exec (.andReg x y) s = .next t ∧ t = { s with V := t.V, pc := s.pc + 2 } ∧
      (∀ b < 8, (t.getV x).getLsbD b = ((s.getV x).getLsbD b && (s.getV y).getLsbD b)) ∧ ∀ r, r ≠ x → t.getV r = s.getV r) ∧
    (∃ t, exec (.xorReg x y) s = .next t ∧ t = { s with V := t.V, pc := s.pc + 2 } ∧
      (∀ b < 8, (t.getV x).getLsbD b = ((s.getV x).getLsbD b ^^ (s.getV y).getLsbD b)) ∧ ∀ r, r ≠ x → t.getV r = s.getV r)

/-- R127: add modulo 256, then VF = 1 iff the sum exceeds 255; the flag is written last, so it stands where the destination is VF, and `y = VF` reads the old VF. -/
def Obligations.AddSetsCarry : Prop :=
  ∀ (x y : Reg) (s : State), decode (packXyn 0x8 x y 4) = .addReg x y ∧
    ∃ t, exec (.addReg x y) s = .next t ∧ t = { s with V := t.V, pc := s.pc + 2 } ∧
      (x ≠ VF → (t.getV x).toNat = ((s.getV x).toNat + (s.getV y).toNat) % 256) ∧
      (t.getV VF).toNat = (if (s.getV x).toNat + (s.getV y).toNat > 255 then 1 else 0) ∧
      ∀ r, r ≠ x → r ≠ VF → t.getV r = s.getV r

/-- R128 (minor code GK2): subtract modulo 256, then VF = 1 iff the minuend is strictly greater (C2). -/
def Obligations.SubSetsStrictlyGreater : Prop :=
  ∀ (x y : Reg) (s : State), decode (packXyn 0x8 x y 5) = .subReg x y ∧
    ∃ t, exec (.subReg x y) s = .next t ∧ t = { s with V := t.V, pc := s.pc + 2 } ∧
      (x ≠ VF → ((t.getV x).toNat : Int) = ((s.getV x).toNat - (s.getV y).toNat : Int) % 256) ∧
      (t.getV VF).toNat = (if (s.getV x).toNat > (s.getV y).toNat then 1 else 0) ∧
      ∀ r, r ≠ x → r ≠ VF → t.getV r = s.getV r

/-- R130 (minor code GK2): reverse subtract; the destination is still `V[x]`. -/
def Obligations.SubnSetsStrictlyGreater : Prop :=
  ∀ (x y : Reg) (s : State), decode (packXyn 0x8 x y 7) = .subnReg x y ∧
    ∃ t, exec (.subnReg x y) s = .next t ∧ t = { s with V := t.V, pc := s.pc + 2 } ∧
      (x ≠ VF → ((t.getV x).toNat : Int) = ((s.getV y).toNat - (s.getV x).toNat : Int) % 256) ∧
      (t.getV VF).toNat = (if (s.getV y).toNat > (s.getV x).toNat then 1 else 0) ∧
      ∀ r, r ≠ x → r ≠ VF → t.getV r = s.getV r

/-- R129, R132 (minor codes GK2, source register D12): shifts of `V[x]` by one in place, VF = the bit shifted out, whatever `y` is. -/
def Obligations.ShiftsSetTheBitShiftedOut : Prop :=
  ∀ (x y : Reg) (s : State), decode (packXyn 0x8 x y 6) = .shr x y ∧ decode (packXyn 0x8 x y 0xE) = .shl x y ∧
    (∃ t, exec (.shr x y) s = .next t ∧ t = { s with V := t.V, pc := s.pc + 2 } ∧
      (x ≠ VF → (t.getV x).toNat = (s.getV x).toNat / 2) ∧ (t.getV VF).toNat = (s.getV x).toNat % 2 ∧
      ∀ r, r ≠ x → r ≠ VF → t.getV r = s.getV r) ∧
    (∃ t, exec (.shl x y) s = .next t ∧ t = { s with V := t.V, pc := s.pc + 2 } ∧
      (x ≠ VF → (t.getV x).toNat = (s.getV x).toNat * 2 % 256) ∧ (t.getV VF).toNat = (s.getV x).toNat / 128 ∧
      ∀ r, r ≠ x → r ≠ VF → t.getV r = s.getV r)

/-- R131: the destination takes the cycle's random byte AND `kk`, with no flag; and the cycle's random byte is whatever the host supplies, any of the 256 values, or the free value of
that cycle (log 1). -/
def Obligations.RandomIsTheFreeByteMasked : Prop :=
  ∀ (x : Reg) (kk : Byte) (s : State), decode (packXkk 0xC x kk) = .rnd x kk ∧
    (∃ t, exec (.rnd x kk) s = .next t ∧ t = { s with V := t.V, pc := s.pc + 2 } ∧
      (∀ b < 8, (t.getV x).getLsbD b = (s.rnd.getLsbD b && kk.getLsbD b)) ∧ ∀ r, r ≠ x → t.getV r = s.getV r) ∧
    (runs s (.rnd x kk) → ∀ (keys : Word) (b : Byte) (rest : List CycleInput),
      ∃ t, step { s with pending := ⟨keys, b⟩ :: rest } = .next t ∧ t.getV x = b &&& kk) ∧
    (runs s (.rnd x kk) → s.pending = [] → ∃ t, step s = .next t ∧ t.getV x = Config.freeRnd s.cycles &&& kk)

/-! ## Index and memory (43_index_memory.md) -/

/-- R140, R141, R142: set the index, add to it modulo 65536 with no flag (D3, D11), and the font address of the whole byte (D23). -/
def Obligations.IndexInstructionsSetI : Prop :=
  ∀ (nnn : Addr) (x : Reg) (s : State),
    decode (packNnn 0xA nnn) = .ldI nnn ∧ decode (packXkk 0xF x 0x1E) = .addI x ∧ decode (packXkk 0xF x 0x29) = .ldF x ∧
    (∃ t, exec (.ldI nnn) s = .next t ∧ t = { s with I := t.I, pc := s.pc + 2 } ∧ t.I.toNat = nnn.toNat) ∧
    (∃ t, exec (.addI x) s = .next t ∧ t = { s with I := t.I, pc := s.pc + 2 } ∧
      t.I.toNat = (s.I.toNat + (s.getV x).toNat) % 65536) ∧
    (∃ t, exec (.ldF x) s = .next t ∧ t = { s with I := t.I, pc := s.pc + 2 } ∧ t.I.toNat = (s.getV x).toNat * 5)

/-- R143: the decimal digits go to `I`, `I + 1`, `I + 2` and no other byte changes; past the end of memory it raises MemoryOutOfBounds and writes nothing. -/
def Obligations.BcdStoresThreeDigits : Prop :=
  ∀ (x : Reg) (s : State), Memory.wf s.mem = true → decode (packXkk 0xF x 0x33) = .ldB x ∧
    (s.I.toNat + 2 ≤ 4095 → ∃ t, exec (.ldB x) s = .next t ∧ t = { s with mem := t.mem, pc := s.pc + 2 } ∧
      (Memory.read t.mem s.I.toNat).toNat = (s.getV x).toNat / 100 ∧
      (Memory.read t.mem (s.I.toNat + 1)).toNat = (s.getV x).toNat / 10 % 10 ∧
      (Memory.read t.mem (s.I.toNat + 2)).toNat = (s.getV x).toNat % 10 ∧
      ∀ a, ¬ (s.I.toNat ≤ a ∧ a ≤ s.I.toNat + 2) → Memory.read t.mem a = Memory.read s.mem a) ∧
    (s.I.toNat + 2 > 4095 → exec (.ldB x) s = .next { s with
      halted := true, faultCause := .memoryOutOfBounds, faultPc := s.pc, faultOpcode := packXkk 0xF x 0x33 })

/-- R144: `V0` to `Vx`, `x` included, go to `I` to `I + x` and no other byte changes, nor `I` (D16); past the end of memory it raises MemoryOutOfBounds and writes nothing. -/
def Obligations.DumpStoresV0ToVx : Prop :=
  ∀ (x : Reg) (s : State), Memory.wf s.mem = true → decode (packXkk 0xF x 0x55) = .ldMemVx x ∧
    (s.I.toNat + x.toNat ≤ 4095 → ∃ t, exec (.ldMemVx x) s = .next t ∧ t = { s with mem := t.mem, pc := s.pc + 2 } ∧
      (∀ r : Reg, r.toNat ≤ x.toNat → Memory.read t.mem (s.I.toNat + r.toNat) = s.getV r) ∧
      ∀ a, ¬ (s.I.toNat ≤ a ∧ a ≤ s.I.toNat + x.toNat) → Memory.read t.mem a = Memory.read s.mem a) ∧
    (s.I.toNat + x.toNat > 4095 → exec (.ldMemVx x) s = .next { s with
      halted := true, faultCause := .memoryOutOfBounds, faultPc := s.pc, faultOpcode := packXkk 0xF x 0x55 })

/-- R145: `V0` to `Vx`, `x` included, take the bytes at `I` to `I + x`; registers above `x`, memory and `I` (D16) stay; past the end of memory it raises MemoryOutOfBounds and
writes nothing. -/
def Obligations.LoadFillsV0ToVx : Prop :=
  ∀ (x : Reg) (s : State), decode (packXkk 0xF x 0x65) = .ldVxMem x ∧
    (s.I.toNat + x.toNat ≤ 4095 → ∃ t, exec (.ldVxMem x) s = .next t ∧ t = { s with V := t.V, pc := s.pc + 2 } ∧
      ∀ r : Reg, t.getV r = if r.toNat ≤ x.toNat then Memory.read s.mem (s.I.toNat + r.toNat) else s.getV r) ∧
    (s.I.toNat + x.toNat > 4095 → exec (.ldVxMem x) s = .next { s with
      halted := true, faultCause := .memoryOutOfBounds, faultPc := s.pc, faultOpcode := packXkk 0xF x 0x65 })

/-- What `Fx55` stores, `Fx65` with the same `I` loads back, whatever the registers hold by then. -/
def Obligations.LoadAfterDumpRestoresRegisters : Prop :=
  ∀ (x : Reg) (s t u : State), Memory.wf s.mem = true → s.I.toNat + x.toNat ≤ 4095 → exec (.ldMemVx x) s = .next t →
    u.mem = t.mem → u.I = s.I → ∃ v, exec (.ldVxMem x) u = .next v ∧ ∀ r : Reg, r.toNat ≤ x.toNat → v.getV r = s.getV r

/-! ## Display (44_display.md) -/

/-- R150, R152: every pixel 0 and `dirty` set; VF and all else stay. -/
def Obligations.ClsClearsTheScreen : Prop :=
  ∀ s : State, decode 0x00E0 = .cls ∧ ∃ t, exec .cls s = .next t ∧
    t = { s with fb := t.fb, dirty := true, pc := s.pc + 2 } ∧ ∀ y x, y < 32 → x < 64 → t.fb.pixel y x = false

/-- R151, R153 (D14 for an origin in VF), R174 (D5): each sprite bit is XORed into its pixel, column and line reduced separately; every other pixel stays; VF = 1 iff a sprite bit 1 met a pixel 1;
`dirty` is set; no other register, nor `I`, nor memory changes. A draw of no rows reads nothing, so it completes whatever `I` is, which R153 marks as derived; and
that each pixel is XORed once is what R151 marks as derived. -/
def Obligations.DrawXorsTheSprite : Prop :=
  ∀ (x y : Reg) (n : Nibble) (s : State), decode (packXyn 0xD x y n) = .drw x y n ∧
    (n.toNat = 0 ∨ s.I.toNat + n.toNat - 1 ≤ 4095 → ∃ t, exec (.drw x y n) s = .next t ∧
      t = { s with V := t.V, fb := t.fb, dirty := true, pc := s.pc + 2 } ∧
      (∀ r b, r < n.toNat → b < 8 →
        t.fb.pixel ((originOf s y + r) % 32) ((originOf s x + b) % 64) =
          (s.fb.pixel ((originOf s y + r) % 32) ((originOf s x + b) % 64) ^^ spriteBit s r b)) ∧
      (∀ py px, py < 32 → px < 64 →
        (∀ r b, r < n.toNat → b < 8 → ¬ (py = (originOf s y + r) % 32 ∧ px = (originOf s x + b) % 64)) →
        t.fb.pixel py px = s.fb.pixel py px) ∧
      (t.getV VF = 0 ∨ t.getV VF = 1) ∧
      (t.getV VF = 1 ↔ ∃ r b, r < n.toNat ∧ b < 8 ∧ spriteBit s r b = true ∧
        s.fb.pixel ((originOf s y + r) % 32) ((originOf s x + b) % 64) = true) ∧
      ∀ r, r ≠ VF → t.getV r = s.getV r) ∧
    (n.toNat > 0 → s.I.toNat + n.toNat - 1 > 4095 → exec (.drw x y n) s = .next { s with
      halted := true, faultCause := .memoryOutOfBounds, faultPc := s.pc, faultOpcode := packXyn 0xD x y n })

/-- R153 (e): the same draw twice gives back the pixels from before it, and the second draw collides iff the first one turned a pixel on. -/
def Obligations.DrawingTwiceRestoresTheScreen : Prop :=
  ∀ (x y : Reg) (n : Nibble) (s : State), n.toNat = 0 ∨ s.I.toNat + n.toNat - 1 ≤ 4095 →
    ∃ t u, exec (.drw x y n) s = .next t ∧ exec (.drw x y n) t = .next u ∧ u.fb = s.fb ∧
      (u.getV VF = 1 ↔ ∃ py px, py < 32 ∧ px < 64 ∧ s.fb.pixel py px = false ∧ t.fb.pixel py px = true)

/-! ## Keys and timers (45_input_timers.md) -/

/-- R160, R161 (an index above 15: D15): skip on key `V[x]` pressed, on not pressed, in this cycle's snapshot; an index above 15 raises KeyIndexOutOfRange. -/
def Obligations.KeySkipsTestTheSnapshot : Prop :=
  ∀ (x : Reg) (s : State), decode (packXkk 0xE x 0x9E) = .skp x ∧ decode (packXkk 0xE x 0xA1) = .sknp x ∧
    ((s.getV x).toNat ≤ 15 →
      exec (.skp x) s = .next { s with pc := if s.keypad.getLsbD (s.getV x).toNat then s.pc + 4 else s.pc + 2 } ∧
      exec (.sknp x) s = .next { s with pc := if s.keypad.getLsbD (s.getV x).toNat then s.pc + 2 else s.pc + 4 }) ∧
    ((s.getV x).toNat > 15 →
      exec (.skp x) s = .next { s with
        halted := true, faultCause := .keyIndexOutOfRange, faultPc := s.pc, faultOpcode := packXkk 0xE x 0x9E } ∧
      exec (.sknp x) s = .next { s with
        halted := true, faultCause := .keyIndexOutOfRange, faultPc := s.pc, faultOpcode := packXkk 0xE x 0xA1 })

/-- R162 (D29): the wait is entered for register `x`; no register is written, the keys are not looked at, `pc` advances and the timers count down; the next cycle does nothing
without a key, and a key down in it ends the wait, the least one going to `V[x]`; `pc` and the timers do not move. -/
def Obligations.KeyWaitIsEntered : Prop :=
  ∀ (x : Reg) (s : State), decode (packXkk 0xF x 0x0A) = .ldVxK x ∧
    exec (.ldVxK x) s = .next { s with waiting := true, waitReg := x, pc := s.pc + 2 } ∧
    (∀ t, runs s (.ldVxK x) → step s = .next t → t.V = s.V ∧ t.pc = s.pc + 2 ∧ t.mode = .waitingForKey ∧
      t.DT.toNat = s.DT.toNat - 1 ∧ t.ST.toNat = s.ST.toNat - 1 ∧ (t.nextKeys = 0 → step t = .next (beginCycle t)) ∧
      (∀ k : BitVec 4, t.nextKeys.getLsbD k.toNat = true → (∀ j < k.toNat, t.nextKeys.getLsbD j = false) →
        ∃ u, step t = .next u ∧ u.getV x = BitVec.ofNat 8 k.toNat ∧ u.pc = t.pc ∧ u.DT = t.DT ∧ u.ST = t.ST ∧ u.mode = .running))

/-- R163, R164, R165 (directions GK3): the moves between a register and the timers. -/
def Obligations.TimerMovesCopy : Prop :=
  ∀ (x : Reg) (s : State),
    decode (packXkk 0xF x 0x07) = .ldVxDt x ∧ decode (packXkk 0xF x 0x15) = .ldDtVx x ∧ decode (packXkk 0xF x 0x18) = .ldStVx x ∧
    (∃ t, exec (.ldVxDt x) s = .next t ∧ t = { s with V := t.V, pc := s.pc + 2 } ∧
      t.getV x = s.DT ∧ ∀ r, r ≠ x → t.getV r = s.getV r) ∧
    exec (.ldDtVx x) s = .next { s with DT := s.getV x, pc := s.pc + 2 } ∧
    exec (.ldStVx x) s = .next { s with ST := s.getV x, pc := s.pc + 2 }
end

