-- ==== Sys2Proof/Laws/Display.lean ====
section
/-! SUPPORT. What drawing does to the pixels and to the collision (spec/44_display.md R151): first for one sprite row, then for a sprite. -/

namespace Sys2Proof.Machine

/-- How far a position lies behind an origin on a ring of `size` positions. -/
def ringOffset (size origin p : Nat) : Nat := (p + size - origin % size) % size

/-- The position `j` behind the origin is the one whose offset is `j` (columns). -/
theorem ringOffset_col {ox j p : Nat} (hp : p < 64) (hj : j < 64) : p = (ox + j) % 64 ↔ ringOffset 64 ox p = j := by
  unfold ringOffset; omega

/-- The position `j` behind the origin is the one whose offset is `j` (lines). -/
theorem ringOffset_line {oy j p : Nat} (hp : p < 32) (hj : j < 32) : p = (oy + j) % 32 ↔ ringOffset 32 oy p = j := by
  unfold ringOffset; omega

/-- One sprite row from bit `b` on: it XORs its bits into line `y` at the offsets `b` to `b + k - 1`, and nothing else. -/
theorem pixel_drawRowFrom (d : Drawing) (ox y : Nat) (row : Byte) (b k : Nat) (hy : y < 32) (hk : b + k ≤ 8) {py px : Nat}
    (hx : px < 64) :
    (d.drawRowFrom ox y row b k).fb.pixel py px =
      (d.fb.pixel py px ^^
        (decide (py = y ∧ b ≤ ringOffset 64 ox px ∧ ringOffset 64 ox px < b + k) && row.getLsbD (7 - ringOffset 64 ox px))) := by
  induction k generalizing d b with
  | zero =>
    have : ¬ (py = y ∧ b ≤ ringOffset 64 ox px ∧ ringOffset 64 ox px < b + 0) := by omega
    simp only [Drawing.drawRowFrom, this, decide_false, Bool.false_and, Bool.xor_false]
  | succ k ih =>
    rw [Drawing.drawRowFrom, ih _ (b + 1) (by omega), Drawing.drawBit,
      pixel_xorPixel _ _ _ _ hy (Nat.mod_lt _ (by simp)), Bool.xor_assoc]
    simp only [ringOffset_col hx (show b < 64 by omega)]
    congr 1
    generalize ringOffset 64 ox px = o
    by_cases h : py = y ∧ o = b
    · obtain ⟨rfl, rfl⟩ := h
      have h2 : o ≤ o ∧ o < o + (k + 1) := by omega
      simp [h2]
    · have : (py = y ∧ b + 1 ≤ o ∧ o < b + 1 + k) ↔ (py = y ∧ b ≤ o ∧ o < b + (k + 1)) := by omega
      rw [decide_eq_false h, Bool.and_false, Bool.false_xor]
      simp only [this]

/-- The collision after one sprite row from bit `b` on: a bit 1 of it has met a pixel that was 1 before the row. -/
theorem collision_drawRowFrom (d : Drawing) (ox y : Nat) (row : Byte) (b k : Nat) (hy : y < 32) (hk : b + k ≤ 8) :
    (d.drawRowFrom ox y row b k).collision = true ↔
      d.collision = true ∨ ∃ j, b ≤ j ∧ j < b + k ∧ row.getLsbD (7 - j) = true ∧ d.fb.pixel y ((ox + j) % 64) = true := by
  induction k generalizing d b with
  | zero =>
    have : ∀ j, ¬ (b ≤ j ∧ j < b + 0) := by omega
    constructor
    · exact .inl
    · rintro (h | ⟨j, h1, h2, _⟩)
      · exact h
      · exact absurd ⟨h1, h2⟩ (this j)
  | succ k ih =>
    rw [Drawing.drawRowFrom, ih _ (b + 1) (by omega)]
    have hpix : ∀ j, b + 1 ≤ j → j < b + 1 + k →
        (d.drawBit y ((ox + b) % Config.fbWidth) (row.getLsbD (7 - b))).fb.pixel y ((ox + j) % 64) = d.fb.pixel y ((ox + j) % 64) := by
      intro j h1 h2
      have : ¬ ((ox + j) % 64 = (ox + b) % 64) := by omega
      rw [Drawing.drawBit, pixel_xorPixel _ _ _ _ hy (Nat.mod_lt _ (by simp))]
      simp [this]
    simp only [Drawing.drawBit, Bool.or_eq_true, Bool.and_eq_true, Config.fbWidth] at hpix ⊢
    constructor
    · rintro ((h | ⟨h1, h2⟩) | ⟨j, h1, h2, h3, h4⟩)
      · exact .inl h
      · exact .inr ⟨b, by omega, by omega, h1, h2⟩
      · exact .inr ⟨j, by omega, by omega, h3, by rwa [hpix j h1 h2] at h4⟩
    · rintro (h | ⟨j, h1, h2, h3, h4⟩)
      · exact .inl (.inl h)
      · by_cases hj : j = b
        · subst hj; exact .inl (.inr ⟨h3, h4⟩)
        · exact .inr ⟨j, by omega, by omega, h3, by rwa [hpix j (by omega) (by omega)]⟩

/-- The sprite rows from row number `r` on: each XORs its bits into its own line at the offsets 0 to 7, and nothing else. -/
theorem pixel_drawRowsFrom (d : Drawing) (ox oy r : Nat) (rows : List Byte) (hr : r + rows.length ≤ 32) {py px : Nat}
    (hy : py < 32) (hx : px < 64) :
    (d.drawRowsFrom ox oy r rows).fb.pixel py px =
      (d.fb.pixel py px ^^
        (decide (r ≤ ringOffset 32 oy py ∧ ringOffset 32 oy py < r + rows.length ∧ ringOffset 64 ox px < 8) &&
          (rows.getD (ringOffset 32 oy py - r) 0).getLsbD (7 - ringOffset 64 ox px))) := by
  induction rows generalizing d r with
  | nil =>
    have : ¬ (r ≤ ringOffset 32 oy py ∧ ringOffset 32 oy py < r + ([] : List Byte).length ∧ ringOffset 64 ox px < 8) := by simp; omega
    simp only [Drawing.drawRowsFrom, this, decide_false, Bool.false_and, Bool.xor_false]
  | cons row rows ih =>
    simp only [List.length_cons] at hr
    rw [Drawing.drawRowsFrom, ih _ (r + 1) (by omega),
      pixel_drawRowFrom _ _ _ _ _ _ (Nat.mod_lt _ (by simp)) (by simp) hx, Bool.xor_assoc]
    simp only [Config.spriteWidth, ringOffset_line hy (show r < 32 by omega)]
    congr 1
    generalize ringOffset 64 ox px = c
    generalize ringOffset 32 oy py = o
    simp only [List.length_cons]
    by_cases h : o = r
    · subst h
      have h1 : ¬ (o + 1 ≤ o) := by omega
      have h2 : o < o + (rows.length + 1) := by omega
      simp [h1, h2]
    · by_cases h' : r + 1 ≤ o
      · have h1 : o - r = (o - (r + 1)) + 1 := by omega
        have h2 : r ≤ o := by omega
        have h3 : (o < r + 1 + rows.length) ↔ (o < r + (rows.length + 1)) := by omega
        simp [h, h', h1, h2, h3]
      · have h1 : ¬ r ≤ o := by omega
        simp [h, h', h1]

/-- The collision after the sprite rows from row number `r` on: a bit 1 of one of them has met a pixel that was 1 before all of them. -/
theorem collision_drawRowsFrom (d : Drawing) (ox oy r : Nat) (rows : List Byte) (hr : r + rows.length ≤ 32) :
    (d.drawRowsFrom ox oy r rows).collision = true ↔
      d.collision = true ∨ ∃ i b, r ≤ i ∧ i < r + rows.length ∧ b < 8 ∧ (rows.getD (i - r) 0).getLsbD (7 - b) = true ∧
        d.fb.pixel ((oy + i) % 32) ((ox + b) % 64) = true := by
  induction rows generalizing d r with
  | nil =>
    constructor
    · exact .inl
    · rintro (h | ⟨i, _, h1, h2, _⟩)
      · exact h
      · simp only [List.length_nil] at h2; omega
  | cons row rows ih =>
    simp only [List.length_cons] at hr
    rw [Drawing.drawRowsFrom, ih _ (r + 1) (by omega), collision_drawRowFrom _ _ _ _ _ _ (Nat.mod_lt _ (by simp)) (by simp)]
    simp only [Config.spriteWidth, Config.fbHeight]
    have hpix : ∀ i b, r + 1 ≤ i → i < r + 1 + rows.length →
        (d.drawRowFrom ox ((oy + r) % 32) row 0 8).fb.pixel ((oy + i) % 32) ((ox + b) % 64) =
          d.fb.pixel ((oy + i) % 32) ((ox + b) % 64) := by
      intro i b h1 h2
      have : ¬ ((oy + i) % 32 = (oy + r) % 32) := by omega
      rw [pixel_drawRowFrom _ _ _ _ _ _ (Nat.mod_lt _ (by simp)) (by omega) (Nat.mod_lt _ (by simp))]
      simp [this]
    simp only [List.length_cons]
    constructor
    · rintro ((h | ⟨j, h1, h2, h3, h4⟩) | ⟨i, b, h1, h2, h3, h4, h5⟩)
      · exact .inl h
      · exact .inr ⟨r, j, by omega, by omega, by omega, by simpa using h3, h4⟩
      · refine .inr ⟨i, b, by omega, by omega, h3, ?_, by rwa [hpix i b h1 h2] at h5⟩
        rw [show i - r = (i - (r + 1)) + 1 by omega, List.getD_cons_succ]
        exact h4
    · rintro (h | ⟨i, b, h1, h2, h3, h4, h5⟩)
      · exact .inl (.inl h)
      · by_cases hi : i = r
        · subst hi
          exact .inl (.inr ⟨b, by omega, by omega, by simpa using h4, h5⟩)
        · refine .inr ⟨i, b, by omega, by omega, h3, ?_, by rwa [hpix i b (by omega) (by omega)]⟩
          rw [show i - r = (i - (r + 1)) + 1 by omega, List.getD_cons_succ] at h4
          exact h4

/-- `FbDraw` on the pixels (R151): the pixel at row offset `r` and column offset `b` from the origin is XORed with bit `b` of sprite row `r`, where there is one. -/
theorem pixel_fbDraw (fb : FrameBuffer) (ox oy : Byte) (rows : List Byte) (hr : rows.length ≤ 32) {py px : Nat} (hy : py < 32)
    (hx : px < 64) :
    (fbDraw fb ox oy rows).fb.pixel py px =
      (fb.pixel py px ^^
        (decide (ringOffset 32 oy.toNat py < rows.length ∧ ringOffset 64 ox.toNat px < 8) &&
          (rows.getD (ringOffset 32 oy.toNat py) 0).getLsbD (7 - ringOffset 64 ox.toNat px))) := by
  rw [fbDraw, pixel_drawRowsFrom _ _ _ _ _ (by omega) hy hx]
  simp

/-- The collision of `FbDraw` (R151): a sprite bit 1 has met a pixel 1. -/
theorem collision_fbDraw (fb : FrameBuffer) (ox oy : Byte) (rows : List Byte) (hr : rows.length ≤ 32) :
    (fbDraw fb ox oy rows).collision = true ↔
      ∃ r b, r < rows.length ∧ b < 8 ∧ (rows.getD r 0).getLsbD (7 - b) = true ∧
        fb.pixel ((oy.toNat + r) % 32) ((ox.toNat + b) % 64) = true := by
  rw [fbDraw, collision_drawRowsFrom _ _ _ _ _ (by omega)]
  simp

/-- Frame buffers that agree on every pixel are equal. -/
theorem FrameBuffer.ext_pixel {fb fb' : FrameBuffer} (h : ∀ y x, y < 32 → x < 64 → fb.pixel y x = fb'.pixel y x) : fb = fb' := by
  apply Vector.ext
  intro y hy
  apply BitVec.eq_of_getLsbD_eq
  intro x hx
  simpa [FrameBuffer.pixel, Vector.getD, hy] using h y x hy hx

/-- Every pixel of a cleared frame buffer is 0 (R150). -/
@[simp] theorem pixel_clear (y x : Nat) : FrameBuffer.pixel (Vector.replicate 32 0) y x = false := by
  by_cases h : y < 32 <;> simp [FrameBuffer.pixel, Vector.getD, h]

end Sys2Proof.Machine
end

