-- ==== Sys2Proof/Laws/Step.lean ====
section
/-! SUPPORT. Once, everything a fetch, an instruction and a cycle can do: the inversion lemmas later proofs start from. -/

namespace Sys2Proof.Machine

/-- A fetch reads the two bytes at `pc`, or finds `pc + 1` outside memory (R85). -/
theorem fetch_cases (s : State) :
    (s.pc.toNat + 1 ≤ 4095 ∧
      fetch s = some (opcodeOfBytes (Memory.read s.mem s.pc.toNat) (Memory.read s.mem (s.pc.toNat + 1)))) ∨
    (s.pc.toNat ≥ 0xFFF ∧ fetch s = none) := by
  obtain ⟨hin, hl⟩ | ⟨hin, hl⟩ := loadBytes_cases s s.pc.toNat Config.opcodeBytes
  · refine .inl ⟨?_, by rw [fetch, hl]; rfl⟩
    have := (inMemory_iff _ _).1 hin
    simp only [Config.opcodeBytes] at this
    omega
  · refine .inr ⟨?_, by rw [fetch, hl]⟩
    have : ¬ (inMemory s.pc.toNat Config.opcodeBytes = true) := by simp [hin]
    rw [inMemory_iff] at this
    simp only [Config.opcodeBytes] at this
    omega

/-- The start of a cycle moves neither `pc` nor memory, so it does not change what is fetched. -/
@[simp] theorem fetch_beginCycle (s : State) : fetch (beginCycle s) = fetch s := rfl

/-- The wait branch writes `V` and `waiting` alone (R84). -/
theorem scanKeys_eq (s : State) : scanKeys s = { s with V := (scanKeys s).V, waiting := (scanKeys s).waiting } := by
  unfold scanKeys
  cases leastKey s.keypad <;> rfl

/-- What one cycle can be: Halted, waiting, a fetch outside memory, or an instruction (R81). -/
theorem step_cases (s : State) :
    (s.halted = true ∧ step s = .next (beginCycle s)) ∨
    (s.halted = false ∧ s.waiting = true ∧ step s = .next (scanKeys (beginCycle s))) ∨
    (s.halted = false ∧ s.waiting = false ∧ fetch s = none ∧
      step s = .next (enterHalted .fetchOutOfBounds 0 (beginCycle s))) ∨
    (s.halted = false ∧ s.waiting = false ∧ ∃ op, fetch s = some op ∧
      step s = endCycle (exec (decode op) (beginCycle s))) := by
  unfold step
  cases hh : s.halted
  · cases hw : s.waiting
    · cases hf : fetch s <;> simp [hh, hw, hf]
    · simp [hh, hw]
  · simp [hh]

/-- What one instruction can be: a fault that records its opcode, or a PC effect on a state whose fault elements and `pc` are the old ones (R86, R180). -/
theorem exec_cases (i : Instr) (s : State) :
    (∃ c, c ≠ .none ∧ exec i s = .next (enterHalted c (encode i) s)) ∨
    (∃ e u, exec i s = .next (applyEffect e u) ∧ u.pc = s.pc ∧ u.halted = s.halted ∧ u.faultCause = s.faultCause ∧
      u.faultPc = s.faultPc ∧ u.faultOpcode = s.faultOpcode) := by
  cases i with
  | ret =>
    obtain ⟨h, he⟩ | ⟨_, he⟩ := pop_cases s
    · refine .inr ⟨_, _, by simp only [exec, execRet, he, finish_eq]; rfl, ?_⟩
      exact ⟨rfl, rfl, rfl, rfl, rfl⟩
    · exact .inl ⟨.stackUnderflow, by decide, by simp only [exec, execRet, he, raise_eq]⟩
  | call nnn =>
    obtain ⟨h, he⟩ | ⟨_, he⟩ := push_cases s (s.pc + 2)
    · refine .inr ⟨_, _, by simp only [exec, execCall, he, finish_eq]; rfl, ?_⟩
      exact ⟨rfl, rfl, rfl, rfl, rfl⟩
    · exact .inl ⟨.stackOverflow, by decide, by simp only [exec, execCall, he, raise_eq]⟩
  | ldB x =>
    obtain ⟨_, he⟩ | ⟨_, he⟩ := storeBytes_cases s s.I.toNat (decimalDigits (s.getV x))
    · refine .inr ⟨_, _, by simp only [exec, execLdB, he, finish_eq]; rfl, ?_⟩
      exact ⟨rfl, rfl, rfl, rfl, rfl⟩
    · exact .inl ⟨.memoryOutOfBounds, by decide, by simp only [exec, execLdB, he, raise_eq]⟩
  | ldMemVx x =>
    obtain ⟨_, he⟩ | ⟨_, he⟩ := storeBytes_cases s s.I.toNat (s.regsUpTo x)
    · refine .inr ⟨_, _, by simp only [exec, execLdMemVx, he, finish_eq]; rfl, ?_⟩
      exact ⟨rfl, rfl, rfl, rfl, rfl⟩
    · exact .inl ⟨.memoryOutOfBounds, by decide, by simp only [exec, execLdMemVx, he, raise_eq]⟩
  | ldVxMem x =>
    obtain ⟨_, he⟩ | ⟨_, he⟩ := loadBytes_cases s s.I.toNat (x.toNat + 1)
    · refine .inr ⟨.next, s.setVFrom 0 (Memory.readBytes s.mem s.I.toNat (x.toNat + 1)),
        by simp only [exec, execLdVxMem, he, finish_eq], ?_⟩
      rw [setVFrom_eq]
      exact ⟨rfl, rfl, rfl, rfl, rfl⟩
    · exact .inl ⟨.memoryOutOfBounds, by decide, by simp only [exec, execLdVxMem, he, raise_eq]⟩
  | drw x y n =>
    obtain ⟨_, he⟩ | ⟨_, he⟩ := loadBytes_cases s s.I.toNat n.toNat
    · refine .inr ⟨_, _, by simp only [exec, execDrw, he, finish_eq]; rfl, ?_⟩
      exact ⟨rfl, rfl, rfl, rfl, rfl⟩
    · exact .inl ⟨.memoryOutOfBounds, by decide, by simp only [exec, execDrw, he, raise_eq]⟩
  | skp x =>
    cases he : s.keyPressed (s.getV x)
    · exact .inl ⟨.keyIndexOutOfRange, by decide, by simp only [exec, execSkp, he, raise_eq]⟩
    · exact .inr ⟨_, s, by simp only [exec, execSkp, he, finish_eq]; rfl, rfl, rfl, rfl, rfl, rfl⟩
  | sknp x =>
    cases he : s.keyPressed (s.getV x)
    · exact .inl ⟨.keyIndexOutOfRange, by decide, by simp only [exec, execSknp, he, raise_eq]⟩
    · exact .inr ⟨_, s, by simp only [exec, execSknp, he, finish_eq]; rfl, rfl, rfl, rfl, rfl, rfl⟩
  | _ => exact .inr ⟨_, _, rfl, rfl, rfl, rfl, rfl, rfl⟩

/-- No instruction stops the model: `exec` always answers a next state (log 5). -/
theorem exec_next (i : Instr) (s : State) : ∃ t, exec i s = .next t := by
  obtain ⟨_, _, h⟩ | ⟨_, _, h, _⟩ := exec_cases i s <;> exact ⟨_, h⟩

/-- One more cycle of a run. -/
theorem run_succ {k : Nat} {s t : State} (h : step s = .next t) :
    Host.Core.run Sys2Proof.core (k + 1) s = Host.Core.run Sys2Proof.core k t := by
  have : Sys2Proof.core.step s = .next t := h
  simp only [Host.Core.run, this]

end Sys2Proof.Machine
end

