-- ==== Sys2Proof/Tests/Slice0.lean ====
section
/-! SUPPORT. The model's own tests. Every expected value is a row of spec/95_test_vectors.md (its id stands in the test's comment) or the spec's encoding written out; the
last part shows, for each obligation with hypotheses, values that meet them. -/

open Sys2Proof Sys2Proof.Machine Sys2Proof.Spec

namespace Sys2Proof.Tests

/-! ## Helpers -/

/-- The answer is a next state with the property. -/
def after (r : Result) (p : State → Bool) : Bool :=
  match r with
  | .next s => p s
  | .fault _ => false
  | .refused _ => false

/-- The state of the vectors: reset, the opcode at `pc`, the inputs of the one cycle. -/
def placed (op : Word) (pc : Word := 0x200) (keys : Word := 0) (rnd : Byte := 0) : State :=
  { State.reset with mem := Memory.writeBytes [] pc.toNat (bytesOfOpcode op), pc := pc, pending := [⟨keys, rnd⟩] }

/-- Registers overridden. -/
def withV (s : State) (vs : List (Reg × Byte)) : State := vs.foldl (fun s p => s.setV p.1 p.2) s

/-- Bytes of memory overridden. -/
def withMem (s : State) (a : Nat) (vs : List Byte) : State := { s with mem := Memory.writeBytes s.mem a vs }

/-- The number of pixels that are 1. -/
def litPixels (fb : FrameBuffer) : Nat :=
  ((List.range 32).map fun y => ((List.range 64).filter fun x => fb.pixel y x).length).sum

/-- The machine has halted with this cause, at 0x200, and `pc` has stayed. -/
def haltedAt200 (c : FaultCause) (op : Word) (s : State) : Bool :=
  s.halted && s.faultCause == c && s.faultPc == 0x200 && s.faultOpcode == op && s.pc == 0x200

/-! ## WellFormed: an ill-formed term is refused -/

theorem test_wellFormed_refuses_cls_as_nop : (Instr.nop 0x00E0).wellFormed = false := by decide
theorem test_wellFormed_refuses_ret_as_nop : (Instr.nop 0x00EE).wellFormed = false := by decide
theorem test_wellFormed_refuses_jp_as_nop : (Instr.nop 0x1ABC).wellFormed = false := by decide
theorem test_wellFormed_refuses_se_as_nop : (Instr.nop 0x5340).wellFormed = false := by decide
theorem test_wellFormed_refuses_add_as_nop : (Instr.nop 0x8014).wellFormed = false := by decide
theorem test_wellFormed_refuses_sne_as_nop : (Instr.nop 0x9340).wellFormed = false := by decide
theorem test_wellFormed_refuses_skp_as_nop : (Instr.nop 0xE39E).wellFormed = false := by decide
theorem test_wellFormed_refuses_ldB_as_nop : (Instr.nop 0xFA33).wellFormed = false := by decide
/-- N1 to N12 of the vectors are no-ops. -/
theorem test_wellFormed_accepts_unmatched :
    ([0x0000, 0x0123, 0x00E1, 0x00FE, 0x5011, 0x9011, 0x8018, 0x801F, 0xE09F, 0xF0FF, 0xF075, 0xFFFF].all
      fun op => (Instr.nop op).wellFormed) = true := by decide

/-! ## Decode: every constructor's word, from the spec's encodings (E1 to E34, N1 to N12) -/

theorem test_decode_flow :
    decode 0x00E0 = .cls ∧ decode 0x00EE = .ret ∧ decode 0x1ABC = .jp 0xABC ∧ decode 0x2210 = .call 0x210 ∧
    decode 0x3A07 = .seImm 0xA 0x07 ∧ decode 0x4A07 = .sneImm 0xA 0x07 ∧ decode 0x5340 = .seReg 3 4 ∧
    decode 0x9340 = .sneReg 3 4 ∧ decode 0xB300 = .jpV0 0x300 := by decide
theorem test_decode_alu :
    decode 0x6005 = .ldImm 0 0x05 ∧ decode 0x7003 = .addImm 0 0x03 ∧ decode 0x8AB0 = .ldReg 0xA 0xB ∧
    decode 0x8AB1 = .orReg 0xA 0xB ∧ decode 0x8AB2 = .andReg 0xA 0xB ∧ decode 0x8AB3 = .xorReg 0xA 0xB ∧
    decode 0x8014 = .addReg 0 1 ∧ decode 0x8AB5 = .subReg 0xA 0xB ∧ decode 0x8AB6 = .shr 0xA 0xB ∧
    decode 0x8AB7 = .subnReg 0xA 0xB ∧ decode 0x8ABE = .shl 0xA 0xB ∧ decode 0xC30F = .rnd 3 0x0F := by decide
theorem test_decode_index_memory :
    decode 0xA20E = .ldI 0x20E ∧ decode 0xF01E = .addI 0 ∧ decode 0xF029 = .ldF 0 ∧ decode 0xFA33 = .ldB 0xA ∧
    decode 0xFF55 = .ldMemVx 0xF ∧ decode 0xF265 = .ldVxMem 2 := by decide
theorem test_decode_display_input_timers :
    decode 0xD012 = .drw 0 1 2 ∧ decode 0xE39E = .skp 3 ∧ decode 0xE3A1 = .sknp 3 ∧ decode 0xF407 = .ldVxDt 4 ∧
    decode 0xF30A = .ldVxK 3 ∧ decode 0xF315 = .ldDtVx 3 ∧ decode 0xF018 = .ldStVx 0 := by decide
theorem test_decode_nop :
    ([0x0000, 0x0123, 0x00E1, 0x00FE, 0x5011, 0x9011, 0x8018, 0x801F, 0xE09F, 0xF0FF, 0xF075, 0xFFFF].all
      fun op => decode op == .nop op) = true := by decide
/-- The bytes of E4, first byte high (R45), and a missing byte. -/
theorem test_decodeBytes :
    decodeBytes [0x22, 0x10, 0x00] = .ok (.call 0x210, [0x00]) ∧ decodeBytes [0x22] = .error .truncated ∧
    decodeTableWord 16 0x2210 = some (.call 0x210) := ⟨rfl, rfl, rfl⟩

/-! ## One step of each instruction, on the vectors -/

/-- N9: no key-index fault although V0 = 99. -/
theorem test_nop_only_advances :
    after (step (withV (placed 0xE09F) [(0, 99)])) (fun t => t.pc == 0x202 && !t.halted && t.getV 0 == 99) = true := by decide

/-- F24. -/
theorem test_nop_at_last_word :
    after (step (placed 0x0000 0xFFE)) (fun t => t.pc == 0x1000 && !t.halted) = true := by decide

/-- F9. -/
theorem test_ret_pops :
    after (step { placed 0x00EE with sp := 1, stack := State.reset.stack.set 0 0x206 }) (fun t => t.pc == 0x206 && t.sp == 0 && t.stack[0] == 0x206) = true := by decide

/-- F8, X4. -/
theorem test_ret_underflow :
    after (step { placed 0x00EE with DT := 5, ST := 5 }) (fun t => haltedAt200 .stackUnderflow 0x00EE t && t.DT == 5 && t.ST == 5) = true := by decide

/-- F1. -/
theorem test_jp :
    after (step (placed 0x1ABC)) (fun t => t.pc == 0xABC) = true := by decide

/-- T8. -/
theorem test_jp_self_counts_down :
    after (step { placed 0x1200 with DT := 1 }) (fun t => t.pc == 0x200 && t.DT == 0) = true := by decide

/-- F6. -/
theorem test_call_sixteenth :
    after (step { placed 0x2300 with sp := 15 }) (fun t => t.pc == 0x300 && t.sp == 16 && t.stack[15] == 0x202) = true := by decide

/-- F7. -/
theorem test_call_overflow :
    after (step { placed 0x2300 with sp := 16 }) (fun t => haltedAt200 .stackOverflow 0x2300 t && t.sp == 16 && t.stack == State.reset.stack) = true := by decide

/-- F11. -/
theorem test_jpV0_largest :
    after (step (withV (placed 0xBFFF) [(0, 0xFF)])) (fun t => t.pc == 0x10FE && !t.halted) = true := by decide

/-- F12. -/
theorem test_jpV0_offset_is_V0 :
    after (step (withV (placed 0xB2F0) [(2, 0x55)])) (fun t => t.pc == 0x2F0) = true := by decide

/-- F13. -/
theorem test_seImm_equal :
    after (step (withV (placed 0x3A07) [(0xA, 7)])) (fun t => t.pc == 0x204) = true := by decide

/-- F14. -/
theorem test_seImm_different :
    after (step (withV (placed 0x3A08) [(0xA, 7)])) (fun t => t.pc == 0x202) = true := by decide

/-- F15. -/
theorem test_sneImm_equal :
    after (step (withV (placed 0x4A07) [(0xA, 7)])) (fun t => t.pc == 0x202) = true := by decide

/-- F16. -/
theorem test_sneImm_different :
    after (step (withV (placed 0x4A08) [(0xA, 7)])) (fun t => t.pc == 0x204) = true := by decide

/-- F17. -/
theorem test_seReg_equal :
    after (step (withV (placed 0x5010) [(0, 1), (1, 1)])) (fun t => t.pc == 0x204) = true := by decide

/-- F18. -/
theorem test_seReg_different :
    after (step (withV (placed 0x5010) [(0, 1), (1, 2)])) (fun t => t.pc == 0x202) = true := by decide

/-- F20. -/
theorem test_sneReg_different :
    after (step (withV (placed 0x9010) [(0, 1), (1, 2)])) (fun t => t.pc == 0x204) = true := by decide

/-- F21. -/
theorem test_sneReg_equal :
    after (step (withV (placed 0x9010) [(0, 1), (1, 1)])) (fun t => t.pc == 0x202) = true := by decide

/-- A32. -/
theorem test_ldImm_VF :
    after (step (placed 0x6FAB)) (fun t => t.getV VF == 0xAB && t.pc == 0x202) = true := by decide

/-- A34. -/
theorem test_addImm_wraps_without_flag :
    after (step (withV (placed 0x7002) [(0, 255), (VF, 1)])) (fun t => t.getV 0 == 1 && t.getV VF == 1) = true := by decide

/-- A31. -/
theorem test_ldReg :
    after (step (withV (placed 0x8010) [(1, 0x77)])) (fun t => t.getV 0 == 0x77 && t.getV 1 == 0x77) = true := by decide

/-- A27. -/
theorem test_orReg :
    after (step (withV (placed 0x8011) [(0, 0xF0), (1, 0x3C), (VF, 1)])) (fun t => t.getV 0 == 0xFC && t.getV VF == 1) = true := by decide

/-- A28. -/
theorem test_andReg :
    after (step (withV (placed 0x8012) [(0, 0xF0), (1, 0x3C), (VF, 1)])) (fun t => t.getV 0 == 0x30 && t.getV VF == 1) = true := by decide

/-- A29. -/
theorem test_xorReg :
    after (step (withV (placed 0x8013) [(0, 0xF0), (1, 0x3C), (VF, 1)])) (fun t => t.getV 0 == 0xCC && t.getV VF == 1) = true := by decide

/-- A1, S2. -/
theorem test_addReg_carry :
    after (step (withV (placed 0x8014) [(0, 250), (1, 10)])) (fun t => t.getV 0 == 4 && t.getV VF == 1 && t.getV 1 == 10 && t.pc == 0x202) = true := by decide

/-- A5. -/
theorem test_addReg_into_VF :
    after (step (withV (placed 0x8FE4) [(VF, 200), (0xE, 100)])) (fun t => t.getV VF == 1) = true := by decide

/-- A9. -/
theorem test_subReg_wraps :
    after (step (withV (placed 0x8015) [(0, 5), (1, 10)])) (fun t => t.getV 0 == 251 && t.getV VF == 0) = true := by decide

/-- A10. -/
theorem test_subReg_equal :
    after (step (withV (placed 0x8015) [(0, 7), (1, 7)])) (fun t => t.getV 0 == 0 && t.getV VF == 0) = true := by decide

/-- A18. -/
theorem test_shr_ignores_y :
    after (step (withV (placed 0x8016) [(0, 5), (1, 0xFF)])) (fun t => t.getV 0 == 2 && t.getV VF == 1 && t.getV 1 == 0xFF) = true := by decide

/-- A22. -/
theorem test_shr_VF :
    after (step (withV (placed 0x8F06) [(VF, 2)])) (fun t => t.getV VF == 0) = true := by decide

/-- A14. -/
theorem test_subnReg :
    after (step (withV (placed 0x8017) [(0, 5), (1, 10)])) (fun t => t.getV 0 == 5 && t.getV VF == 1) = true := by decide

/-- A15. -/
theorem test_subnReg_wraps :
    after (step (withV (placed 0x8017) [(0, 10), (1, 5)])) (fun t => t.getV 0 == 251 && t.getV VF == 0) = true := by decide

/-- A23. -/
theorem test_shl :
    after (step (withV (placed 0x801E) [(0, 0x81), (1, 0xFF)])) (fun t => t.getV 0 == 0x02 && t.getV VF == 1) = true := by decide

/-- A26. -/
theorem test_shl_VF :
    after (step (withV (placed 0x8F0E) [(VF, 0x41)])) (fun t => t.getV VF == 0) = true := by decide

/-- A36. -/
theorem test_rnd_masks :
    after (step (placed 0xC30F 0x200 0 0xA7)) (fun t => t.getV 3 == 0x07) = true := by decide

/-- M1. -/
theorem test_ldI :
    after (step (placed 0xA20E)) (fun t => t.I == 0x20E && t.pc == 0x202) = true := by decide

/-- M3. -/
theorem test_addI_past_12_bits :
    after (step { withV (placed 0xF01E) [(0, 5), (VF, 7)] with I := 0xFFE }) (fun t => t.I == 0x1003 && t.getV VF == 7) = true := by decide

/-- M4. -/
theorem test_addI_wraps :
    after (step { withV (placed 0xF01E) [(0, 1)] with I := 0xFFFF }) (fun t => t.I == 0) = true := by decide

/-- M5. -/
theorem test_ldF_glyph :
    after (step (withV (placed 0xF029) [(0, 0x0A)])) (fun t => t.I == 0x32) = true := by decide

/-- M6. -/
theorem test_ldF_whole_byte :
    after (step (withV (placed 0xF029) [(0, 0xFF)])) (fun t => t.I == 0x4FB) = true := by decide

/-- M7. -/
theorem test_ldB_digits :
    after (step { withV (placed 0xFA33) [(0xA, 156)] with I := 0x300 }) (fun t => Memory.readBytes t.mem 0x300 3 == [1, 5, 6]) = true := by decide

/-- M11. -/
theorem test_ldB_past_the_end :
    after (step { withV (placed 0xF033) [(0, 9)] with I := 4094 }) (fun t => haltedAt200 .memoryOutOfBounds 0xF033 t && t.mem == (placed 0xF033).mem) = true := by decide

/-- M16. -/
theorem test_ldMemVx_last_place :
    after (step { withV (placed 0xFF55) [(0, 0xAA), (VF, 0xBB)] with I := 4080 }) (fun t => Memory.read t.mem 4080 == 0xAA && Memory.read t.mem 4095 == 0xBB && t.I == 4080) = true := by decide

/-- M17. -/
theorem test_ldMemVx_past_the_end :
    after (step { withV (placed 0xFF55) [(0, 0xAA)] with I := 4081 }) (fun t => haltedAt200 .memoryOutOfBounds 0xFF55 t && Memory.read t.mem 4081 == 0) = true := by decide

/-- M15. -/
theorem test_ldVxMem_inclusive :
    after (step { withMem (withV (placed 0xF265) [(3, 0x33)]) 0x300 [1, 5, 6, 7] with I := 0x300 }) (fun t => t.getV 0 == 1 && t.getV 1 == 5 && t.getV 2 == 6 && t.getV 3 == 0x33) = true := by decide

/-- M19. -/
theorem test_ldVxMem_past_the_end :
    after (step { placed 0xF165 with I := 4095 }) (fun t => haltedAt200 .memoryOutOfBounds 0xF165 t) = true := by decide

/-- G1. -/
theorem test_cls_sets_changed :
    after (step { placed 0x00E0 with fb := Vector.replicate 32 (BitVec.allOnes 64) }) (fun t => litPixels t.fb == 0 && (outputs t).fbChanged && t.pc == 0x202) = true := by decide

/-- G4. -/
theorem test_drw_wraps_both_axes :
    after (step { withMem (withV (placed 0xD012) [(0, 62), (1, 31)]) 0x20E [0xE0, 0x80] with I := 0x20E }) (fun t => litPixels t.fb == 4 && t.fb.pixel 31 62 && t.fb.pixel 31 63 && t.fb.pixel 31 0 && t.fb.pixel 0 62 && t.getV VF == 0) = true := by decide

/-- G6. -/
theorem test_drw_partial_overlap :
    after (step { withMem (placed 0xD011) 0x300 [0x60] with I := 0x300, fb := State.reset.fb.set 0 3 }) (fun t => litPixels t.fb == 2 && t.fb.pixel 0 0 && t.fb.pixel 0 2 && t.getV VF == 1) = true := by decide

/-- K1. -/
theorem test_skp_pressed :
    after (step (withV (placed 0xE39E 0x200 0x0080) [(3, 7)])) (fun t => t.pc == 0x204) = true := by decide

/-- K5. -/
theorem test_skp_no_such_key :
    after (step (withV (placed 0xE09E) [(0, 16)])) (fun t => haltedAt200 .keyIndexOutOfRange 0xE09E t) = true := by decide

/-- K3. -/
theorem test_sknp_pressed :
    after (step (withV (placed 0xE3A1 0x200 0x0080) [(3, 7)])) (fun t => t.pc == 0x202) = true := by decide

/-- K4. -/
theorem test_sknp_released :
    after (step (withV (placed 0xE3A1) [(3, 7)])) (fun t => t.pc == 0x204) = true := by decide

/-- K7, first cycle. -/
theorem test_ldVxK_waits :
    after (step (placed 0xF50A 0x200 0xFFFF)) (fun t => t.waiting && t.waitReg == 5 && t.pc == 0x202 && t.getV 5 == 0) = true := by decide

/-- T1. -/
theorem test_ldVxDt_reads_before_countdown :
    after (step { placed 0xF007 with DT := 9 }) (fun t => t.getV 0 == 9 && t.DT == 8 && t.pc == 0x202) = true := by decide

/-- T2. -/
theorem test_ldDtVx_loses_one :
    after (step (withV (placed 0xF015) [(0, 1)])) (fun t => t.DT == 0) = true := by decide

/-- T3. -/
theorem test_ldDtVx_floor :
    after (step (placed 0xF015)) (fun t => t.DT == 0) = true := by decide

/-- T5. -/
theorem test_ldStVx_beeps :
    after (step (withV (placed 0xF018) [(0, 2)])) (fun t => t.ST == 1 && (outputs t).beep) = true := by decide

/-- T6. -/
theorem test_ldStVx_one_is_not_heard :
    after (step (withV (placed 0xF018) [(0, 1)])) (fun t => t.ST == 0 && !(outputs t).beep) = true := by decide

/-! ## The cycle: waiting, Halted, fetch, load -/

/-- K7, second cycle, and T10. -/
theorem test_wait_takes_least_key :
    after (step { placed 0x6005 0x200 0x8008 with waiting := true, waitReg := 5, DT := 3, ST := 3 }) (fun t => t.getV 5 == 3 && !t.waiting && t.DT == 3 && t.ST == 3 && t.pc == 0x200 && t.getV 0 == 0) = true := by decide

/-- T9. -/
theorem test_wait_without_key :
    after (step { placed 0x6005 with waiting := true, waitReg := 2, DT := 3, ST := 3 }) (fun t => t.waiting && t.DT == 3 && t.ST == 3 && t.pc == 0x200 && (outputs t).beep) = true := by decide

/-- X1. -/
theorem test_fetch_past_the_end :
    after (step { placed 0x0000 with pc := 0xFFF }) (fun t => t.halted && t.faultCause == .fetchOutOfBounds && t.faultPc == 0xFFF && t.faultOpcode == 0 && t.pc == 0xFFF) = true := by decide

/-- X2. -/
theorem test_fetch_last_word :
    after (step (placed 0x1200 0xFFE)) (fun t => t.pc == 0x200 && !t.halted) = true := by decide

/-- X5. -/
theorem test_halted_cycle :
    after (step { enterHalted .stackUnderflow 0x00EE (placed 0x00EE 0x200 0xFFFF) with ST := 5, dirty := true }) (fun t => t.keypad == 0xFFFF && !t.dirty && haltedAt200 .stackUnderflow 0x00EE t && t.ST == 5 && (outputs t).beep) = true := by decide

/-- L2: 3585 bytes are too many. -/
theorem test_load_too_large : loadProgram (List.replicate 3585 0) State.reset = .error .programTooLarge := by
  rw [loadProgram, if_pos (show State.reset.loadOpen = true from rfl), if_neg (by rw [List.length_replicate]; decide)]
/-- L4: the two bytes at 0x200, and nothing else listed. -/
theorem test_load_two_bytes :
    (match loadProgram [0x12, 0x00] State.reset with
      | .ok t => t.mem == [(0x200, 0x12)] && Memory.read t.mem 0x201 == 0 && t.pc == 0x200
      | .error _ => false) = true := by decide
/-- Z5, Z6: the font at its default, and zero above it. -/
theorem test_reset_memory :
    Memory.read State.reset.mem 0 = 0xF0 ∧ Memory.read State.reset.mem 5 = 0x20 ∧
    Memory.readBytes State.reset.mem 0x4B 5 = [0xF0, 0x80, 0xF0, 0x80, 0x80] ∧ Memory.read State.reset.mem 0x50 = 0 ∧
    Memory.read State.reset.mem 0xFFF = 0 := by decide
/-- A byte written back to its reset contents leaves no cell (the canonical form). -/
theorem test_memory_canonical : Memory.write (Memory.write [] 0x300 7) 0x300 0 = [] ∧ Memory.write [] 0 0xF0 = [] := by decide
/-- The host's entry: the placed word runs as the first instruction after reset, E8. -/
theorem test_withFetchWord : after (step (State.reset.withFetchWord 16 0x6005)) (fun t => t.getV 0 == 5 && t.pc == 0x202) = true := by decide

/-! ## Witnesses: values that meet the hypotheses of each obligation that has some, at the boundaries of their ranges -/

/-- A halted state, for the statements about Halted. -/
def haltedState : State := enterHalted .stackUnderflow 0x00EE (placed 0x00EE 0x200 0xFFFF)

/-- A waiting state whose coming cycle has these keys. -/
def waitingState (keys : Word) : State := { placed 0x6005 0x200 keys with waiting := true, waitReg := 5 }

/-- A state whose coming cycle runs the instruction: the hypotheses of `runs`. -/
theorem witness_runs {op : Word} {s : State} (h1 : s.halted = false) (h2 : s.waiting = false) (h3 : fetch s = some op) : runs s (decode op) :=
  ⟨h1, h2, op, h3, rfl⟩

theorem witness_ResetGivesTheTabulatedValues :
    ∃ s r : State, (r = State.reset ∨ r = applyReset s) ∧ s.halted = true ∧ (79 < 80) ∧ (0x50 ≤ 0x50 ∧ 0x50 ≤ 0xFFF ∧ 0xFFF ≤ 0xFFF) :=
  ⟨haltedState, _, .inr rfl, rfl, by decide⟩

theorem witness_ProgramLoad_longest :
    ∃ (s t : State) (prog : List Byte), Memory.wf s.mem = true ∧ s.loadOpen = true ∧ prog.length = 3584 ∧ 3583 < prog.length ∧
      ¬ (0x200 ≤ 0x1FF ∧ 0x1FF < 0x200 + prog.length) ∧ step s = .next t :=
  ⟨State.reset, _, List.replicate 3584 1, rfl, rfl, List.length_replicate, by rw [List.length_replicate]; decide, by omega, rfl⟩
theorem witness_ProgramLoad_too_long :
    ∃ (s : State) (prog : List Byte), Memory.wf s.mem = true ∧ s.loadOpen = true ∧ prog.length = 3585 ∧ prog.length > 3584 :=
  ⟨State.reset, List.replicate 3585 1, rfl, rfl, List.length_replicate, by rw [List.length_replicate]; decide⟩

theorem witness_LoadedProgramIsFetchedFirst : ∃ t, loadProgram [0x60, 0x05] State.reset = .ok t := ⟨_, rfl⟩

theorem witness_NoProgramRunsNoOpsThenHalts : ∃ k : Nat, k ≤ 1792 ∧ k = 1792 := ⟨1792, by decide⟩

theorem witness_DecodeOfEncode_fields :
    (Instr.drw 0xF 0 0xF).wellFormed = true ∧ (Instr.jp 0xFFF).wellFormed = true ∧ (Instr.rnd 0xF 0xFF).wellFormed = true ∧
    (Instr.nop 0xFFFF).wellFormed = true ∧ (Instr.nop 0x0000).wellFormed = true := by decide

theorem witness_DecodeTakesTheFirstSelectedRow :
    ∃ (op : Word) (j : Nat) (p : OpcodeRow), j < 34 ∧ j = 33 ∧ opcodeRows[j]? = some p ∧ p.selects op = true ∧ opcodeRows[34]? = some ⟨0, 0⟩ :=
  ⟨0xFF65, 33, _, by decide, rfl, rfl, rfl, rfl⟩

theorem witness_NoOpsAreTheUnmatchedOpcodes : ∃ op w : Word, decode op = .nop w ∧ op = 0xFFFF := ⟨0xFFFF, _, rfl, rfl⟩

theorem witness_StepRunsTheDecodedInstruction :
    ∃ (s t : State) (i : Instr), s.halted = false ∧ s.waiting = false ∧ s.pc.toNat + 1 = 4095 ∧ s.pc.toNat + 1 ≤ 4095 ∧
      decode (BitVec.ofNat 16 ((Memory.read s.mem s.pc.toNat).toNat * 256 + (Memory.read s.mem (s.pc.toNat + 1)).toNat)) = i ∧
      exec i (beginCycle s) = .next t ∧ t.halted = false :=
  ⟨placed 0x6005 0xFFE, _, _, rfl, rfl, rfl, by decide, rfl, rfl, rfl⟩
theorem witness_StepRunsTheDecodedInstruction_fault :
    ∃ t : State, exec .ret (beginCycle (placed 0x00EE)) = .next t ∧ t.halted = true := ⟨_, rfl, rfl⟩

theorem witness_EveryCycleLatchesKeysAndClearsDirty :
    ∃ (s t : State) (input : CycleInput) (rest : List CycleInput), step s = .next t ∧ s.pending = input :: rest ∧ t.dirty = true :=
  ⟨placed 0x00E0, _, _, _, rfl, rfl, rfl⟩

theorem witness_FetchPastTheEndHalts :
    (∃ s : State, s.halted = false ∧ s.waiting = false ∧ s.pc.toNat = 0xFFF ∧ s.pc.toNat ≥ 0xFFF) ∧
    (∃ s : State, s.halted = false ∧ s.waiting = false ∧ s.pc.toNat = 0xFFFF ∧ s.pc.toNat ≥ 0xFFF) :=
  ⟨⟨{ State.reset with pc := 0xFFF }, by decide⟩, ⟨{ State.reset with pc := 0xFFFF }, by decide⟩⟩

theorem witness_HaltedCycleChangesNothingElse : ∃ s : State, s.halted = true := ⟨haltedState, rfl⟩

theorem witness_WaitCycle_no_key : ∃ s : State, s.halted = false ∧ s.waiting = true ∧ s.nextKeys = 0 := ⟨waitingState 0, rfl, rfl, rfl⟩
theorem witness_WaitCycle_highest_key :
    ∃ (s : State) (k : BitVec 4), s.halted = false ∧ s.waiting = true ∧ s.nextKeys ≠ 0 ∧ k = 15 ∧
      s.nextKeys.getLsbD k.toNat = true ∧ ∀ j < k.toNat, s.nextKeys.getLsbD j = false :=
  ⟨waitingState 0x8000, 15, rfl, rfl, by decide, rfl, by decide, by decide⟩
theorem witness_WaitCycle_lowest_key :
    ∃ (s : State) (k : BitVec 4), s.halted = false ∧ s.waiting = true ∧ k = 0 ∧
      s.nextKeys.getLsbD k.toNat = true ∧ ∀ j < k.toNat, s.nextKeys.getLsbD j = false :=
  ⟨waitingState 0xFFFF, 0, rfl, rfl, rfl, by decide, by decide⟩

theorem witness_Timers_fault : ∃ (s u : State) (i : Instr), runs s i ∧ exec i (beginCycle s) = .next u ∧ u.halted = true :=
  ⟨placed 0x00EE, _, _, witness_runs (op := 0x00EE) rfl rfl rfl, rfl, rfl⟩
theorem witness_Timers_normal : ∃ (s u : State) (i : Instr), runs s i ∧ exec i (beginCycle s) = .next u ∧ u.halted = false :=
  ⟨placed 0x6005, _, _, witness_runs (op := 0x6005) rfl rfl rfl, rfl, rfl⟩
theorem witness_Timers_halted_or_waiting :
    (∃ s t : State, (s.halted = true ∨ s.waiting = true) ∧ s.halted = true ∧ step s = .next t) ∧
    (∃ s t : State, (s.halted = true ∨ s.waiting = true) ∧ s.waiting = true ∧ step s = .next t) :=
  ⟨⟨haltedState, _, .inl rfl, rfl, rfl⟩, ⟨waitingState 0, _, .inr rfl, rfl, rfl⟩⟩
theorem witness_Timers_moves :
    (∃ s t : State, step s = .next t ∧ runs s (.ldVxDt 0xF)) ∧ (∃ s t : State, step s = .next t ∧ runs s (.ldDtVx 0xF)) ∧
    (∃ s t : State, step s = .next t ∧ runs s (.ldStVx 0) ∧ (s.getV 0).toNat = 1) :=
  ⟨⟨placed 0xFF07, _, rfl, witness_runs (op := 0xFF07) rfl rfl rfl⟩, ⟨placed 0xFF15, _, rfl, witness_runs (op := 0xFF15) rfl rfl rfl⟩,
   ⟨withV (placed 0xF018) [(0, 1)], _, rfl, witness_runs (op := 0xF018) rfl rfl rfl, rfl⟩⟩

theorem witness_ModesChangeOnlyAsTabulated :
    (∃ s t : State, ¬ (s.halted = true ∧ s.waiting = true) ∧ step s = .next t ∧ s.mode = .running) ∧
    (∃ s t : State, ¬ (s.halted = true ∧ s.waiting = true) ∧ step s = .next t ∧ s.mode = .waitingForKey) ∧
    (∃ s t : State, ¬ (s.halted = true ∧ s.waiting = true) ∧ step s = .next t ∧ s.mode = .isHalted) :=
  ⟨⟨placed 0xF50A, _, by decide, rfl, rfl⟩, ⟨waitingState 0x8008, _, by decide, rfl, rfl⟩, ⟨haltedState, _, by decide, rfl, rfl⟩⟩

theorem witness_HaltedLastsUntilReset : ∃ s : State, s.halted = true := ⟨haltedState, rfl⟩

theorem witness_WaitLastsWhileNoKeyIsPressed :
    ∃ (k : Nat) (s : State), s.halted = false ∧ s.waiting = true ∧ k = s.pending.length ∧ 0 < k ∧ ∀ input ∈ s.pending.take k, input.keys = 0 :=
  ⟨2, { waitingState 0 with pending := [⟨0, 1⟩, ⟨0, 2⟩] }, rfl, rfl, rfl, by decide, by decide⟩

/-- The invariant holds in the state of the vectors. -/
theorem invariant_placed : Invariant (placed 0x60FF) :=
  ⟨by decide, by decide, by decide, by decide, by decide, by decide, by decide⟩
theorem witness_InvariantHoldsAtResetAndAfterLoad :
    ∃ (prog : List Byte) (s t : State), Invariant s ∧ loadProgram prog s = .ok t ∧ prog ≠ [] :=
  ⟨[0x12, 0x00], placed 0x60FF, _, invariant_placed, rfl, by decide⟩
theorem witness_InvariantIsKeptByEveryStep : ∃ s t : State, Invariant s ∧ step s = .next t ∧ t ≠ s :=
  ⟨placed 0x60FF, _, invariant_placed, rfl, by decide⟩

theorem witness_IdleLoopIsSafeForEver :
    ∃ (s : State) (nnn : Addr), s.halted = false ∧ s.waiting = false ∧ s.pc.toNat = nnn.toNat ∧ nnn.toNat = 0xFFE ∧ nnn.toNat ≤ 0xFFE ∧
      fetch s = some (packNnn 0x1 nnn) :=
  ⟨placed 0x1FFE 0xFFE, 0xFFE, rfl, rfl, rfl, rfl, by decide, rfl⟩

/-- The last value with no fault and the first with one, of every row of R170 that an instruction has. -/
theorem witness_FaultsAreTakenAsTabulatedAndPrecise :
    faultOf (.call 0) { State.reset with sp := 16 } = .stackOverflow ∧ faultOf .ret State.reset = .stackUnderflow ∧
    faultOf (.drw 0 0 15) { State.reset with I := 4082 } = .memoryOutOfBounds ∧
    faultOf (.ldB 0) { State.reset with I := 4094 } = .memoryOutOfBounds ∧
    faultOf (.ldMemVx 15) { State.reset with I := 4081 } = .memoryOutOfBounds ∧
    faultOf (.ldVxMem 0) { State.reset with I := 4096 } = .memoryOutOfBounds ∧
    faultOf (.skp 0) (State.reset.setV 0 16) = .keyIndexOutOfRange ∧ faultOf (.sknp 0) (State.reset.setV 0 255) = .keyIndexOutOfRange := by
  decide
theorem witness_FaultsAreTakenAsTabulatedAndPrecise_cycle :
    ∃ (s : State) (op : Word), s.halted = false ∧ s.waiting = false ∧ fetch s = some op ∧ faultOf (decode op) (beginCycle s) ≠ .none :=
  ⟨placed 0x00EE, 0x00EE, rfl, rfl, rfl, by decide⟩
theorem witness_EveryOtherInstructionCompletes :
    faultOf (.call 0) { State.reset with sp := 15 } = .none ∧ faultOf .ret { State.reset with sp := 1 } = .none ∧
    faultOf (.drw 0 0 15) { State.reset with I := 4081 } = .none ∧ faultOf (.drw 0 0 0) { State.reset with I := 0xFFFF } = .none ∧
    faultOf (.ldB 0) { State.reset with I := 4093 } = .none ∧ faultOf (.ldMemVx 15) { State.reset with I := 4080 } = .none ∧
    faultOf (.ldVxMem 0) { State.reset with I := 4095 } = .none ∧ faultOf (.skp 0) (State.reset.setV 0 15) = .none ∧
    faultOf (.sknp 0) (State.reset.setV 0 15) = .none ∧ faultOf (.nop 0xFFFF) State.reset = .none := by
  decide

theorem witness_EveryInstructionKeepsWhatItDoesNotWrite :
    (∃ t, exec (.ldVxMem 3) State.reset = .next t) ∧ writesReg (.ldVxMem 3) 4 = false ∧ writesIndex (.ldVxMem 3) = false ∧
    (Instr.ldVxMem 3 ≠ .ret) ∧ (∀ n, Instr.ldVxMem 3 ≠ .call n) ∧ (∀ x, Instr.ldVxMem 3 ≠ .ldDtVx x) ∧ (∀ x, Instr.ldVxMem 3 ≠ .ldStVx x) ∧
    (∀ x, Instr.ldVxMem 3 ≠ .ldVxK x) ∧ drawsPixels (.ldVxMem 3) = false ∧ storesMemory (.ldVxMem 3) = false :=
  ⟨⟨_, rfl⟩, by decide, rfl, by simp, by simp, by simp, by simp, by simp, rfl, rfl⟩

theorem witness_OnlyTheTwoStoresChangeMemory : ∃ s t : State, step s = .next t ∧ t.mem ≠ s.mem :=
  ⟨{ withV (placed 0xFA33) [(0xA, 156)] with I := 0x300 }, _, rfl, by decide⟩

theorem witness_OnlyDisplayInstructionsChangePixels : ∃ s t : State, step s = .next t ∧ t.fb ≠ s.fb :=
  ⟨{ placed 0x00E0 with fb := Vector.replicate 32 1 }, _, rfl, by decide⟩

theorem witness_InputsAreReadOnlyWhereNamed :
    ∃ t : State, exec (.jp 0x300) State.reset = .next t ∧ readsRandom (.jp 0x300) = false ∧ readsKeypad (.jp 0x300) = false :=
  ⟨_, rfl, rfl, rfl⟩

theorem witness_StoredBytesAreFetched :
    ∃ (s t : State) (x : Reg) (j : Nat), Memory.wf s.mem = true ∧ s.I.toNat + x.toNat = 4095 ∧ s.I.toNat + x.toNat ≤ 4095 ∧ j + 1 = x.toNat ∧
      j + 1 ≤ x.toNat ∧ exec (.ldMemVx x) s = .next t :=
  ⟨{ State.reset with I := 4080 }, _, 15, 14, rfl, rfl, by decide, rfl, by decide, rfl⟩

theorem witness_CanonicalMemoriesThatReadAlikeAreEqual :
    ∃ m m' : Memory, Memory.wf m = true ∧ Memory.wf m' = true ∧ m ≠ [] ∧ ∀ a, Memory.read m a = Memory.read m' a :=
  ⟨[(0x300, 7)], Memory.write [] 0x300 7, by decide, by decide, by decide, fun _ => rfl⟩

theorem witness_NopOnlyAdvances :
    (∃ s : State, runs s (.nop 0x0123)) ∧ (0x0E1 : Addr) ≠ 0x0E0 ∧ (0x0E1 : Addr) ≠ 0x0EE :=
  ⟨⟨placed 0x0123, witness_runs (op := 0x0123) rfl rfl rfl⟩, by decide, by decide⟩

theorem witness_RegisterSkipsCompare : (1 : Nibble) ≠ 0 ∧ (0xF : Nibble) ≠ 0 := by decide

theorem witness_ReturnPopsIntoPc :
    (∃ s : State, s.sp.val = 0) ∧ (∃ s : State, s.sp.val = 0 + 1) ∧ (∃ s : State, s.sp.val = 15 + 1) :=
  ⟨⟨State.reset, rfl⟩, ⟨{ State.reset with sp := 1 }, rfl⟩, ⟨{ State.reset with sp := 16 }, rfl⟩⟩

theorem witness_CallPushesTheNextAddress : (∃ s : State, s.sp.val = 15 ∧ s.sp.val < 16) ∧ (∃ s : State, s.sp.val = 16) :=
  ⟨⟨{ State.reset with sp := 15 }, by decide⟩, ⟨{ State.reset with sp := 16 }, rfl⟩⟩

theorem witness_ReturnAfterCallComesBack :
    ∃ (s t u : State), s.sp.val = 15 ∧ s.sp.val < 16 ∧ exec (.call 0x300) s = .next t ∧ u.stack = t.stack ∧ u.sp = t.sp ∧ u ≠ t :=
  ⟨{ State.reset with sp := 15 }, _, { State.reset with sp := 16, stack := State.reset.stack.set 15 0x202 }, rfl, by decide, rfl, rfl, rfl, by decide⟩

/-- The destination VF and another one, another register, a bit 7: the hypotheses inside the ALU statements (`ImmediateLoadAndAdd` to `RandomIsTheFreeByteMasked`). -/
theorem witness_alu_registers : (0 : Reg) ≠ VF ∧ (0xE : Reg) ≠ VF ∧ (1 : Reg) ≠ 0 ∧ (1 : Reg) ≠ VF ∧ 7 < 8 := by decide

theorem witness_RandomIsTheFreeByteMasked :
    (∃ s : State, runs s (.rnd 3 0x0F)) ∧ (∃ s : State, runs s (.rnd 3 0x0F) ∧ s.pending = []) :=
  ⟨⟨placed 0xC30F, witness_runs (op := 0xC30F) rfl rfl rfl⟩,
   ⟨{ placed 0xC30F with pending := [] }, witness_runs (op := 0xC30F) rfl rfl rfl, rfl⟩⟩

theorem witness_BcdStoresThreeDigits :
    (∃ s : State, Memory.wf s.mem = true ∧ s.I.toNat + 2 = 4095 ∧ ¬ (s.I.toNat ≤ 4092 ∧ 4092 ≤ s.I.toNat + 2)) ∧
    (∃ s : State, Memory.wf s.mem = true ∧ s.I.toNat + 2 = 4096 ∧ s.I.toNat + 2 > 4095) :=
  ⟨⟨{ State.reset with I := 4093 }, by decide⟩, ⟨{ State.reset with I := 4094 }, by decide⟩⟩

theorem witness_DumpStoresV0ToVx :
    (∃ (s : State) (x : Reg), Memory.wf s.mem = true ∧ s.I.toNat + x.toNat = 4095 ∧ (0 : Reg).toNat ≤ x.toNat ∧ ¬ (s.I.toNat ≤ 4079 ∧ 4079 ≤ s.I.toNat + x.toNat)) ∧
    (∃ (s : State) (x : Reg), Memory.wf s.mem = true ∧ s.I.toNat + x.toNat = 4096 ∧ s.I.toNat + x.toNat > 4095) :=
  ⟨⟨{ State.reset with I := 4080 }, 15, by decide⟩, ⟨{ State.reset with I := 4081 }, 15, by decide⟩⟩

theorem witness_LoadFillsV0ToVx :
    (∃ (s : State) (x : Reg), s.I.toNat + x.toNat = 4095 ∧ s.I.toNat + x.toNat ≤ 4095) ∧
    (∃ (s : State) (x : Reg), s.I.toNat + x.toNat = 4096 ∧ s.I.toNat + x.toNat > 4095) :=
  ⟨⟨{ State.reset with I := 4080 }, 15, by decide⟩, ⟨{ State.reset with I := 4096 }, 0, by decide⟩⟩

theorem witness_LoadAfterDumpRestoresRegisters :
    ∃ (x : Reg) (s t u : State), Memory.wf s.mem = true ∧ s.I.toNat + x.toNat = 4095 ∧ s.I.toNat + x.toNat ≤ 4095 ∧
      exec (.ldMemVx x) s = .next t ∧ u.mem = t.mem ∧ u.I = s.I ∧ u.V ≠ s.V :=
  ⟨15, State.setV { State.reset with I := 4080 } 3 9, _, { State.reset with I := 4080, mem := [(4083, 9)] }, rfl, rfl, by decide, rfl, rfl, rfl, by decide⟩

theorem witness_DrawXorsTheSprite :
    (∃ (n : Nibble) (s : State), (n.toNat = 0 ∨ s.I.toNat + n.toNat - 1 ≤ 4095) ∧ n.toNat = 0 ∧ s.I = 0xFFFF) ∧
    (∃ (n : Nibble) (s : State), (n.toNat = 0 ∨ s.I.toNat + n.toNat - 1 ≤ 4095) ∧ s.I.toNat + n.toNat - 1 = 4095 ∧ 14 < n.toNat ∧ 7 < 8) ∧
    (∃ (n : Nibble) (s : State), n.toNat > 0 ∧ s.I.toNat + n.toNat - 1 = 4096 ∧ s.I.toNat + n.toNat - 1 > 4095) :=
  ⟨⟨0, { State.reset with I := 0xFFFF }, by decide⟩, ⟨15, { State.reset with I := 4081 }, by decide⟩, ⟨15, { State.reset with I := 4082 }, by decide⟩⟩
/-- A pixel that no bit of a draw at the origin reaches. -/
theorem witness_DrawXorsTheSprite_other_pixel :
    31 < 32 ∧ 63 < 64 ∧ ∀ r b, r < 15 → b < 8 →
      ¬ (31 = (originOf State.reset 0 + r) % 32 ∧ 63 = (originOf State.reset 1 + b) % 64) := by
  refine ⟨by decide, by decide, fun r b hr hb h => ?_⟩
  have h0 : originOf State.reset 0 = 0 := rfl
  have h1 : originOf State.reset 1 = 0 := rfl
  omega

theorem witness_DrawingTwiceRestoresTheScreen :
    ∃ (n : Nibble) (s : State), (n.toNat = 0 ∨ s.I.toNat + n.toNat - 1 ≤ 4095) ∧ n.toNat = 15 ∧ s.I.toNat + n.toNat - 1 = 4095 :=
  ⟨15, { State.reset with I := 4081 }, by decide⟩

theorem witness_KeySkipsTestTheSnapshot :
    (∃ (x : Reg) (s : State), (s.getV x).toNat = 15 ∧ (s.getV x).toNat ≤ 15) ∧ (∃ (x : Reg) (s : State), (s.getV x).toNat = 16 ∧ (s.getV x).toNat > 15) :=
  ⟨⟨0, State.reset.setV 0 15, by decide⟩, ⟨0, State.reset.setV 0 16, by decide⟩⟩

theorem witness_KeyWaitIsEntered_no_key : ∃ s t : State, runs s (.ldVxK 0xF) ∧ step s = .next t ∧ t.nextKeys = 0 :=
  ⟨{ placed 0xFF0A with pending := [⟨0xFFFF, 0⟩, ⟨0, 0⟩] }, _, witness_runs (op := 0xFF0A) rfl rfl rfl, rfl, rfl⟩
theorem witness_KeyWaitIsEntered :
    ∃ (s t : State) (k : BitVec 4), runs s (.ldVxK 0xF) ∧ step s = .next t ∧ k = 15 ∧
      t.nextKeys.getLsbD k.toNat = true ∧ ∀ j < k.toNat, t.nextKeys.getLsbD j = false :=
  ⟨{ placed 0xFF0A with pending := [⟨0xFFFF, 0⟩, ⟨0x8000, 0⟩] }, _, 15, witness_runs (op := 0xFF0A) rfl rfl rfl, rfl, rfl, by decide, by decide⟩

end Sys2Proof.Tests
end

section
/-! PROOFS. What an instruction leaves unchanged, in one structure, with one rule per state operation and one case analysis of `exec`. -/

namespace Sys2Proof.Machine

open Sys2Proof.Spec

/-- `t` differs from `s` only in what `i` is named as writing (R11, R12, R15, R16, R40, R154), in `pc` and in the fault elements. The memory clause speaks of the
representation, which is more than the bytes. -/
structure Frame (i : Instr) (s t : State) : Prop where
  registers : ∀ r, writesReg i r = false → t.getV r = s.getV r
  index : writesIndex i = false → t.I = s.I
  depth : i ≠ .ret → (∀ n, i ≠ .call n) → t.sp = s.sp
  stack : (∀ n, i ≠ .call n) → t.stack = s.stack
  delayTimer : (∀ x, i ≠ .ldDtVx x) → t.DT = s.DT
  soundTimer : (∀ x, i ≠ .ldStVx x) → t.ST = s.ST
  wait : (∀ x, i ≠ .ldVxK x) → t.waiting = s.waiting ∧ t.waitReg = s.waitReg
  pixels : drawsPixels i = false → t.fb = s.fb ∧ t.dirty = s.dirty
  memory : storesMemory i = false → t.mem = s.mem
  keypad : t.keypad = s.keypad
  rnd : t.rnd = s.rnd
  pending : t.pending = s.pending
  cycles : t.cycles = s.cycles
  loadOpen : t.loadOpen = s.loadOpen

/-- What an instruction can do to `pc`, as the value it ends with: keep it (a fault), move past one or two opcodes, or take an operand or a stack entry (R86, R87). -/
inductive PcMove (s : State) : Word → Prop where
  | stay : PcMove s s.pc
  | next : PcMove s (s.pc + 2)
  | skip : PcMove s (s.pc + 4)
  | absolute (nnn : Addr) : PcMove s (absoluteAddr nnn)
  | offset (nnn : Addr) (v : Byte) : PcMove s (offsetTarget nnn v)
  | entry (j : Nat) (h : j < 16) : PcMove s s.stack[j]

/-- A conditional skip moves past one or two opcodes. -/
theorem PcMove.skipIf (s : State) (c : Bool) : PcMove s ((PcEffect.skipIf c).target s.pc) := by
  cases c
  · exact .next
  · exact .skip

variable {i : Instr} {s u t : State}

/-! ## One rule per state operation -/

theorem Frame.refl (i : Instr) (s : State) : Frame i s s where
  registers _ _ := rfl
  index _ := rfl
  depth _ _ := rfl
  stack _ := rfl
  delayTimer _ := rfl
  soundTimer _ := rfl
  wait _ := ⟨rfl, rfl⟩
  pixels _ := ⟨rfl, rfl⟩
  memory _ := rfl
  keypad := rfl
  rnd := rfl
  pending := rfl
  cycles := rfl
  loadOpen := rfl

theorem Frame.applyEffect (h : Frame i s u) (e : PcEffect) : Frame i s (applyEffect e u) := { h with }

theorem Frame.enterHalted (h : Frame i s u) (c : FaultCause) (op : Word) : Frame i s (enterHalted c op u) := { h with }

theorem Frame.setV (h : Frame i s u) {x : Reg} (hx : writesReg i x = true) (v : Byte) : Frame i s (u.setV x v) :=
  { h with
    registers := fun r hr => by
      have hrx : r ≠ x := fun e => by simp [e, hx] at hr
      rw [getV_setV, if_neg hrx, h.registers r hr] }

theorem Frame.setResultThenFlag (h : Frame i s u) {x : Reg} (hx : writesReg i x = true) (hf : writesReg i VF = true) (v f : Byte) :
    Frame i s (u.setResultThenFlag x v f) := (h.setV hx v).setV hf f

/-- A run of bytes loaded into `V[0]` to `V[x]` (R145). -/
theorem Frame.setVFrom (x : Reg) {vs : List Byte} (hvs : vs.length = x.toNat + 1) : Frame (.ldVxMem x) s (s.setVFrom 0 vs) := by
  rw [setVFrom_eq]
  exact
    { Frame.refl _ s with
      registers := fun r hr => by
        have hout : ¬ (0 ≤ r.toNat ∧ r.toNat < 0 + vs.length) := by
          simp only [writesReg, decide_eq_false_iff_not] at hr
          omega
        exact (getV_setVFrom s 0 vs (by omega) r).trans (if_neg hout) }

theorem Frame.fbClear (h : Frame i s u) (hi : drawsPixels i = true) : Frame i s u.fbClear :=
  { h with pixels := by simp [hi] }

theorem Frame.withDrawing (h : Frame i s u) (hi : drawsPixels i = true) (d : Drawing) : Frame i s (u.withDrawing d) :=
  { h with pixels := by simp [hi] }

theorem Frame.setIndex (hi : writesIndex i = true) (v : Word) : Frame i s { s with I := v } :=
  { Frame.refl i s with index := by simp [hi] }

theorem Frame.setMem (hi : storesMemory i = true) (m : Memory) : Frame i s { s with mem := m } :=
  { Frame.refl i s with memory := by simp [hi] }

theorem Frame.setDepth (n : Fin 17) : Frame .ret s { s with sp := n } :=
  { Frame.refl _ s with depth := fun h => absurd rfl h }

theorem Frame.setStack (nnn : Addr) (entries : Vector Word 16) (n : Fin 17) :
    Frame (.call nnn) s { s with stack := entries, sp := n } :=
  { Frame.refl _ s with
    depth := fun _ h => absurd rfl (h nnn)
    stack := fun h => absurd rfl (h nnn) }

/-! ## The instructions -/

/-- An instruction that ends normally: its frame is that of its writes, its move that of its PC effect. -/
theorem exec_frame_of_finish {e : PcEffect} (he : exec i s = finish e u) (hf : Frame i s u) (hpc : PcMove s (e.target u.pc)) :
    ∃ t, exec i s = .next t ∧ Frame i s t ∧ PcMove s t.pc := ⟨_, he, hf.applyEffect e, hpc⟩

/-- An instruction that raises a fault keeps everything the frame speaks of, and `pc` (R180). -/
theorem exec_frame_of_raise {c : FaultCause} {op : Word} (he : exec i s = raise c op s) :
    ∃ t, exec i s = .next t ∧ Frame i s t ∧ PcMove s t.pc := ⟨_, he, (Frame.refl i s).enterHalted c op, .stay⟩

/-- Every instruction answers a next state with its frame, and moves `pc` in one of the six ways. -/
theorem exec_frame_pcMove (i : Instr) (s : State) : ∃ t, exec i s = .next t ∧ Frame i s t ∧ PcMove s t.pc := by
  have same : Frame i s s := .refl i s
  cases i with
  | cls => exact exec_frame_of_finish rfl (same.fbClear rfl) .next
  | ret =>
    obtain ⟨_, he⟩ | ⟨_, he⟩ := pop_cases s
    · exact exec_frame_of_finish (by rw [exec, execRet, he])
        (.setDepth _) (.entry _ _)
    · exact exec_frame_of_raise (by rw [exec, execRet, he])
  | call nnn =>
    obtain ⟨_, he⟩ | ⟨_, he⟩ := push_cases s (s.pc + 2)
    · exact exec_frame_of_finish (by rw [exec, execCall, he])
        (.setStack nnn _ _) (.absolute nnn)
    · exact exec_frame_of_raise (by rw [exec, execCall, he])
  | jp nnn => exact exec_frame_of_finish rfl same (.absolute nnn)
  | jpV0 nnn => exact exec_frame_of_finish rfl same (.offset nnn _)
  | seImm | sneImm | seReg | sneReg => exact exec_frame_of_finish rfl same (.skipIf s _)
  | ldImm | addImm | ldReg | orReg | andReg | xorReg | rnd | ldVxDt =>
    exact exec_frame_of_finish rfl (same.setV (by simp [writesReg]) _) .next
  | addReg | subReg | shr | subnReg | shl =>
    exact exec_frame_of_finish rfl (same.setResultThenFlag (by simp [writesReg]) (by simp [writesReg]) _ _) .next
  | ldI | addI | ldF => exact exec_frame_of_finish rfl (.setIndex rfl _) .next
  | drw x y n =>
    obtain ⟨_, he⟩ | ⟨_, he⟩ := loadBytes_cases s s.I.toNat n.toNat
    · exact exec_frame_of_finish (by rw [exec, execDrw, he])
        (((same.setV rfl 0).withDrawing rfl _).setV rfl _) .next
    · exact exec_frame_of_raise (by rw [exec, execDrw, he])
  | ldB x =>
    obtain ⟨_, he⟩ | ⟨_, he⟩ := storeBytes_cases s s.I.toNat (decimalDigits (s.getV x))
    · exact exec_frame_of_finish (by rw [exec, execLdB, he]) (.setMem rfl _) .next
    · exact exec_frame_of_raise (by rw [exec, execLdB, he])
  | ldMemVx x =>
    obtain ⟨_, he⟩ | ⟨_, he⟩ := storeBytes_cases s s.I.toNat (s.regsUpTo x)
    · exact exec_frame_of_finish (by rw [exec, execLdMemVx, he]) (.setMem rfl _) .next
    · exact exec_frame_of_raise (by rw [exec, execLdMemVx, he])
  | ldVxMem x =>
    obtain ⟨_, he⟩ | ⟨_, he⟩ := loadBytes_cases s s.I.toNat (x.toNat + 1)
    · exact exec_frame_of_finish (by rw [exec, execLdVxMem, he])
        (.setVFrom x (Memory.length_readBytes _ _ _)) (by rw [setVFrom_eq]; exact .next)
    · exact exec_frame_of_raise (by rw [exec, execLdVxMem, he])
  | skp x =>
    cases he : s.keyPressed (s.getV x) with
    | none => exact exec_frame_of_raise (by rw [exec, execSkp, he])
    | some b => exact exec_frame_of_finish (by rw [exec, execSkp, he]) same (.skipIf s b)
  | sknp x =>
    cases he : s.keyPressed (s.getV x) with
    | none => exact exec_frame_of_raise (by rw [exec, execSknp, he])
    | some b => exact exec_frame_of_finish (by rw [exec, execSknp, he]) same (.skipIf s !b)
  | ldVxK x => exact exec_frame_of_finish rfl { same with wait := fun h => absurd rfl (h x) } .next
  | ldDtVx x => exact exec_frame_of_finish rfl { same with delayTimer := fun h => absurd rfl (h x) } .next
  | ldStVx x => exact exec_frame_of_finish rfl { same with soundTimer := fun h => absurd rfl (h x) } .next
  | nop => exact exec_frame_of_finish rfl same .next

/-- The frame of an instruction. -/
theorem exec_frame (h : exec i s = .next t) : Frame i s t := by
  obtain ⟨t', ht, hframe, -⟩ := exec_frame_pcMove i s
  cases h.symm.trans ht
  exact hframe

/-- The `pc` after an instruction. -/
theorem exec_pcMove (h : exec i s = .next t) : PcMove s t.pc := by
  obtain ⟨t', ht, -, hpc⟩ := exec_frame_pcMove i s
  cases h.symm.trans ht
  exact hpc

/-- Settles O26, by the frame of each instruction. -/
theorem everyInstructionKeepsWhatItDoesNotWrite : Obligations.EveryInstructionKeepsWhatItDoesNotWrite := by
  intro i s t h
  have f : Frame i s t := exec_frame h
  exact ⟨f.registers, f.index, f.depth, f.stack, f.delayTimer, f.soundTimer, f.wait, f.pixels,
    fun hi a => by rw [f.memory hi], f.keypad, f.rnd, f.pending, f.cycles, f.loadOpen⟩

end Sys2Proof.Machine
end

section
/-! PROOFS. Every step keeps the invariant of Safety.lean. -/

namespace Sys2Proof.Machine

variable {i : Instr} {s t u : State}

/-! ## `pc` and the return addresses stay in bounds (R14, R16) -/

/-- From an address a fetch accepts, with bounded return addresses, every move of `pc` ends at 0x10FE or below; the bound is met by `Bnnn` alone. -/
theorem PcMove.bound {pc : Word} (h : PcMove s pc) (hpc : s.pc.toNat ≤ 0xFFE) (hstack : ∀ j (h : j < 16), s.stack[j].toNat ≤ 0x1000) :
    pc.toNat ≤ 0x10FE := by
  cases h with
  | stay => omega
  | next => bv_omega
  | skip => bv_omega
  | absolute nnn => simp [absoluteAddr]; omega
  | offset nnn v => simp [offsetTarget]; omega
  | entry j hj => exact (hstack j hj).trans (by decide)

/-- The address a call pushes is the one after it, and no other instruction writes the stack. -/
theorem exec_stackBound (h : exec i s = .next t) (hpc : s.pc.toNat ≤ 0xFFE) (hstack : ∀ j (h : j < 16), s.stack[j].toNat ≤ 0x1000) :
    ∀ j (h : j < 16), t.stack[j].toNat ≤ 0x1000 := by
  intro j hj
  by_cases hcall : ∃ nnn, i = .call nnn
  · obtain ⟨nnn, rfl⟩ := hcall
    obtain ⟨_, hpush⟩ | ⟨_, hpush⟩ := push_cases s (s.pc + 2)
    · simp only [exec, execCall, hpush] at h
      cases h
      simp only [applyEffect_stack, Vector.getElem_set]
      split
      · bv_omega
      · exact hstack j hj
    · simp only [exec, execCall, hpush] at h
      cases h
      exact hstack j hj
  · rw [(exec_frame h).stack fun nnn e => hcall ⟨nnn, e⟩]
    exact hstack j hj

/-- The two stores keep memory canonical, and no other instruction writes it. -/
theorem exec_memory_wf (h : exec i s = .next t) (hwf : Memory.wf s.mem = true) : Memory.wf t.mem = true := by
  cases i with
  | ldB x =>
    simp only [exec, execLdB] at h
    split at h
    · cases h
      exact hwf
    · next u hstore =>
      cases h
      exact storeBytes_wf (s' := u) hwf hstore
  | ldMemVx x =>
    simp only [exec, execLdMemVx] at h
    split at h
    · cases h
      exact hwf
    · next u hstore =>
      cases h
      exact storeBytes_wf (s' := u) hwf hstore
  | _ =>
    rw [(exec_frame h).memory rfl]
    exact hwf

/-! ## The invariant over the parts of a cycle -/

theorem Invariant.beginCycle (h : Invariant s) : Invariant (beginCycle s) := { h with }

theorem Invariant.tickTimers (h : Invariant s) : Invariant (tickTimers s) := { h with }

/-- The key scan can end the wait, never begin one. -/
theorem Invariant.scanKeys (h : Invariant s) (hrun : s.halted = false) : Invariant (scanKeys s) := by
  rw [scanKeys_eq]
  exact { h with modes := by simp [hrun] }

/-- A fault taken in the Running state: its record is of the instruction at `pc`. -/
theorem Invariant.enterHalted (h : Invariant s) (hwait : s.waiting = false) {c : FaultCause} (hc : c ≠ .none) (op : Word) :
    Invariant (enterHalted c op s) :=
  { h with
    modes := by simp [hwait]
    cause := by simp [hc]
    record := by simp
    stays := fun _ => rfl }

/-- An instruction executed in the Running state, at an address a fetch accepts: it raises a fault, or the machine goes on without one. -/
theorem Invariant.exec (h : Invariant s) (hrun : s.halted = false) (hwait : s.waiting = false) (hpc : s.pc.toNat ≤ 0xFFE)
    (he : exec i s = .next t) : Invariant t := by
  obtain ⟨c, hc, hf⟩ | ⟨e, u, hn, -, hhalted, hcause, hfaultPc, hfaultOpcode⟩ := exec_cases i s
  · cases he.symm.trans hf
    exact h.enterHalted hwait hc _
  · have hbound := (exec_pcMove he).bound hpc h.stackBound
    have hstack := exec_stackBound he hpc h.stackBound
    have hmem := exec_memory_wf he h.memory
    cases he.symm.trans hn
    exact
      { memory := hmem
        pcBound := hbound
        stackBound := hstack
        modes := by simp [hhalted, hrun]
        cause := by simp [hhalted, hcause, h.cause]
        record := by simpa [hhalted, hfaultPc, hfaultOpcode] using h.record
        stays := by simp [hhalted, hrun] }

/-- The end of a cycle counts the timers down or does nothing. -/
theorem Invariant.endCycle (h : Invariant u) (he : endCycle (.next u) = .next t) : Invariant t := by
  cases hu : u.halted with
  | false => cases (endCycle_running hu).symm.trans he; exact h.tickTimers
  | true => cases (endCycle_halted hu).symm.trans he; exact h

/-- Settles O22, over the four things a cycle can be. -/
theorem invariantIsKeptByEveryStep : Obligations.InvariantIsKeptByEveryStep := by
  intro s t h hstep
  obtain ⟨_, hs⟩ | ⟨hrun, _, hs⟩ | ⟨_, hwait, _, hs⟩ | ⟨hrun, hwait, op, hfetch, hs⟩ := step_cases s
  · cases hs.symm.trans hstep
    exact h.beginCycle
  · cases hs.symm.trans hstep
    exact h.beginCycle.scanKeys hrun
  · cases hs.symm.trans hstep
    exact h.beginCycle.enterHalted hwait (by decide) 0
  · obtain ⟨u, hu⟩ := exec_next (decode op) (beginCycle s)
    have hpc : s.pc.toNat ≤ 0xFFE := by
      obtain ⟨hin, -⟩ | ⟨-, hnone⟩ := fetch_cases s
      · omega
      · simp [hnone] at hfetch
    rw [hs, hu] at hstep
    exact (h.beginCycle.exec hrun hwait hpc hu).endCycle hstep

end Sys2Proof.Machine
end

section
/-! PROOFS. The state after a reset, the invariant after a reset and after a load, and the outputs. -/

namespace Sys2Proof.Machine

variable {s t : State}

/-- After a reset, at power on or applied, the state is the reset state but for the host's side (R27, R200; log 7). -/
theorem eq_reset_of_reset {r : State} (h : r = State.reset ∨ r = applyReset s) :
    r = { State.reset with pending := r.pending, cycles := r.cycles } := by
  obtain rfl | rfl := h <;> rfl

/-- Memory after reset holds the font in its first 80 bytes (R41). -/
theorem read_reset_font {a : Nat} (ha : a < 80) : Config.fontRom[a]? = some (Memory.read State.reset.mem a) := by
  have hlen : a < Config.fontRom.length := ha
  simp [State.reset, Memory.read, Memory.resetByte, hlen]

/-- Memory after reset is 0 above the font (R27, D18; log 4). -/
theorem read_reset_above {a : Nat} (ha : 0x50 ≤ a) : Memory.read State.reset.mem a = 0 := by
  have hlen : Config.fontRom.length ≤ a := ha
  simp [State.reset, Memory.read, Memory.resetByte, hlen]

/-- Settles O1, field by field on the reset state. -/
theorem resetGivesTheTabulatedValues : Obligations.ResetGivesTheTabulatedValues := by
  intro s r h
  rw [eq_reset_of_reset h]
  have hV : ∀ x, State.reset.getV x = 0 := fun x => Vector.getElem_replicate x.isLt
  have hstack : ∀ j (h : j < 16), State.reset.stack[j] = 0 := fun j h => Vector.getElem_replicate h
  exact ⟨hV, rfl, rfl, rfl, hstack, rfl, rfl, fun y x _ _ => pixel_clear y x, rfl, rfl, rfl, rfl, rfl, rfl, rfl, rfl,
    fun _ ha => read_reset_font ha, fun _ ha _ => read_reset_above ha⟩

theorem invariant_reset : Invariant State.reset where
  memory := State.reset_mem_wf
  pcBound := by decide
  stackBound j hj := by simp [State.reset]
  modes := by decide
  cause := by decide
  record := by decide
  stays := by decide

/-- A load changes memory within its bounds, and closes the load. -/
theorem loadProgram_ok {prog : List Byte} (h : loadProgram prog s = .ok t) :
    prog.length ≤ Config.programMax ∧ t = { s with mem := Memory.writeBytes s.mem Config.programBase prog, loadOpen := false } := by
  unfold loadProgram at h
  split at h
  · split at h
    · next hlen => cases h; exact ⟨hlen, rfl⟩
    · cases h
  · cases h

theorem Invariant.loadProgram {prog : List Byte} (h : Invariant s) (hl : loadProgram prog s = .ok t) : Invariant t := by
  obtain ⟨hlen, rfl⟩ := loadProgram_ok hl
  refine { h with memory := Memory.wf_writeBytes h.memory ?_ }
  simp only [Config.programMax, Config.programBase, Config.memSize] at hlen ⊢
  omega

/-- Settles O21, by the invariant of the reset state and the bound of a load. -/
theorem invariantHoldsAtResetAndAfterLoad : Obligations.InvariantHoldsAtResetAndAfterLoad :=
  ⟨invariant_reset, fun _ => { invariant_reset with }, fun _ _ _ h hl => h.loadProgram hl⟩

/-- Settles O5: each output is a field of the state, and a timer is above 0 as a number. -/
theorem outputsAreReadOffTheState : Obligations.OutputsAreReadOffTheState := by
  intro t
  exact ⟨fun _ _ => rfl, rfl, decide_eq_true_iff, rfl, rfl, rfl, rfl⟩

end Sys2Proof.Machine
end

section
/-! PROOFS. Main memory: bytes written and read back (20_memory.md R48, R50, R51), the canonical form, and which cycles write it. -/

namespace Sys2Proof.Machine

open Sys2Proof.Spec

variable {s t u : State} {m m' rest : Memory} {lo a : Nat} {v : Byte}

/-! ## A canonical memory is determined by its bytes -/

theorem Memory.wfFrom_cons_iff :
    Memory.wfFrom lo ((a, v) :: rest) = true ↔
      lo ≤ a ∧ a < Config.memSize ∧ v ≠ Memory.resetByte a ∧ Memory.wfFrom (a + 1) rest = true := by
  simp [Memory.wfFrom, and_assoc]

@[simp] theorem Memory.read_head : Memory.read ((a, v) :: rest) a = v := if_pos rfl

/-- The first cell of a canonical memory is seen by a read: no memory whose cells all lie above it reads the same there. -/
theorem Memory.read_head_ne (h : Memory.wfFrom lo ((a, v) :: rest) = true) (h' : Memory.wfFrom (a + 1) m' = true) :
    Memory.read ((a, v) :: rest) a ≠ Memory.read m' a := by
  obtain ⟨-, -, hv, -⟩ := Memory.wfFrom_cons_iff.1 h
  rwa [Memory.read_head, Memory.read_below h' (Nat.lt_succ_self a)]

/-- What the cells behind the first one read as. -/
theorem Memory.read_tail (h : Memory.wfFrom (a + 1) rest = true) (b : Nat) :
    Memory.read rest b = if b = a then Memory.resetByte a else Memory.read ((a, v) :: rest) b := by
  split
  · next hb => rw [hb, Memory.read_below h (Nat.lt_succ_self a)]
  · next hb => exact (if_neg (Ne.symm hb)).symm

/-- By induction on the cells: the first cells agree because each is seen by a read, and the cells behind them read alike again. -/
theorem Memory.eq_of_read_eq (h : Memory.wfFrom lo m = true) (h' : Memory.wfFrom lo m' = true)
    (heq : ∀ a, Memory.read m a = Memory.read m' a) : m = m' := by
  induction m generalizing lo m' with
  | nil =>
    cases m' with
    | nil => rfl
    | cons c' rest' => exact absurd (heq c'.1).symm (Memory.read_head_ne h' rfl)
  | cons c rest ih =>
    obtain ⟨a, v⟩ := c
    cases m' with
    | nil => exact absurd (heq a) (Memory.read_head_ne h rfl)
    | cons c' rest' =>
      obtain ⟨b, w⟩ := c'
      obtain ⟨-, ha, hv, hrest⟩ := Memory.wfFrom_cons_iff.1 h
      obtain ⟨-, hb, hw, hrest'⟩ := Memory.wfFrom_cons_iff.1 h'
      obtain hlt | rfl | hgt := lt_trichotomy a b
      · exact absurd (heq a) (Memory.read_head_ne h (Memory.wfFrom_cons_iff.2 ⟨hlt, hb, hw, hrest'⟩))
      · obtain rfl : v = w := by simpa using heq a
        have htails : rest = rest' := ih hrest hrest' fun c => by
          rw [Memory.read_tail (v := v) hrest, Memory.read_tail (v := v) hrest', heq c]
        rw [htails]
      · exact absurd (heq b).symm (Memory.read_head_ne h' (Memory.wfFrom_cons_iff.2 ⟨hgt, ha, hv, hrest⟩))

/-- Settles O31, from address 0 on. -/
theorem canonicalMemoriesThatReadAlikeAreEqual : Obligations.CanonicalMemoriesThatReadAlikeAreEqual :=
  fun _ _ h h' heq => Memory.eq_of_read_eq h h' heq

/-! ## Bytes written in a run -/

theorem Memory.read_writeBytes_inside (h : Memory.wf m = true) {vs : List Byte} (ha : a + vs.length ≤ Config.memSize)
    {j : Nat} (hj : j < vs.length) : Memory.read (Memory.writeBytes m a vs) (a + j) = vs[j] := by
  rw [Memory.read_writeBytes h ha, if_pos (by omega), Nat.add_sub_cancel_left, List.getD_eq_getElem _ _ hj]

/-! ## A dump and a fetch from it -/

/-- The memory after `Fx55` in `s` with no fault (R144). -/
def State.dumpedMemory (s : State) (x : Reg) : Memory := Memory.writeBytes s.mem s.I.toNat (s.regsUpTo x)

/-- `Fx55` within memory stores the registers and moves `pc` on (R144). -/
theorem exec_ldMemVx {x : Reg} (hin : s.I.toNat + x.toNat ≤ 4095) :
    exec (.ldMemVx x) s = .next (applyEffect .next { s with mem := s.dumpedMemory x }) := by
  have hbound : inMemory s.I.toNat (s.regsUpTo x).length = true :=
    (inMemory_iff _ _).2 (.inr (by rw [length_regsUpTo]; omega))
  obtain ⟨-, hstore⟩ | ⟨hout, -⟩ := storeBytes_cases s s.I.toNat (s.regsUpTo x)
  · simp only [exec, execLdMemVx, hstore, finish_eq, State.dumpedMemory]
  · exact absurd hbound (Bool.eq_false_iff.1 hout)

theorem getElem_regsUpTo {x : Reg} {j : Nat} (hj : j < (s.regsUpTo x).length) :
    (s.regsUpTo x)[j] = s.getV (BitVec.ofNat 4 j) := by
  simp [State.regsUpTo]

/-- The byte `j` places above `I` is `V[j]` after the dump (R144). -/
theorem read_dumpedMemory (h : Memory.wf s.mem = true) {x : Reg} (hin : s.I.toNat + x.toNat ≤ 4095) {j : Nat} (hj : j ≤ x.toNat) :
    Memory.read (s.dumpedMemory x) (s.I.toNat + j) = s.getV (BitVec.ofNat 4 j) := by
  have hlen : s.I.toNat + (s.regsUpTo x).length ≤ Config.memSize := by
    simp only [length_regsUpTo, Config.memSize]
    omega
  have hj' : j < (s.regsUpTo x).length := by
    rw [length_regsUpTo]
    omega
  rw [State.dumpedMemory, Memory.read_writeBytes_inside h hlen hj', getElem_regsUpTo]

/-- A fetch inside memory reads the two bytes at `pc`, high byte first (R60, R85). -/
theorem fetch_of_inside (h : s.pc.toNat + 1 ≤ 4095) :
    fetch s = some (BitVec.ofNat 16
      ((Memory.read s.mem s.pc.toNat).toNat * 256 + (Memory.read s.mem (s.pc.toNat + 1)).toNat)) := by
  obtain ⟨-, hf⟩ | ⟨hout, -⟩ := fetch_cases s
  · rw [hf, ← opcodeOfBytes_toNat, BitVec.ofNat_toNat, BitVec.setWidth_eq]
  · omega

/-- Settles O30: the two bytes a fetch reads are the two the dump has stored there. -/
theorem storedBytesAreFetched : Obligations.StoredBytesAreFetched := by
  intro s t x j hwf hin hj hexec
  cases (exec_ldMemVx hin).symm.trans hexec
  have hpc : (BitVec.ofNat 16 (s.I.toNat + j)).toNat = s.I.toNat + j := by
    rw [BitVec.toNat_ofNat]
    omega
  rw [fetch_of_inside (by simp only [hpc]; omega)]
  simp only [hpc, applyEffect_mem]
  rw [read_dumpedMemory hwf hin (by omega), Nat.add_assoc, read_dumpedMemory hwf hin hj]

/-! ## What a cycle writes -/

/-- The countdown at the end of a cycle writes the timers alone (R88). -/
theorem endCycle_eq (h : endCycle (.next u) = .next t) : t = { u with DT := t.DT, ST := t.ST } := by
  by_cases hu : u.halted = true
  · cases (endCycle_halted hu).symm.trans h
    rfl
  · cases (endCycle_running (Bool.eq_false_iff.2 hu)).symm.trans h
    rfl

/-- A cycle that executes no instruction writes `V`, the end of the wait and the fault elements at most; any other executes one and then writes the timers alone. -/
theorem step_idle_or_runs (h : step s = .next t) :
    (t = { beginCycle s with
        V := t.V, waiting := t.waiting, halted := t.halted
        faultCause := t.faultCause, faultPc := t.faultPc, faultOpcode := t.faultOpcode }) ∨
    (∃ i u, runs s i ∧ exec i (beginCycle s) = .next u ∧ t = { u with DT := t.DT, ST := t.ST }) := by
  obtain ⟨_, hs⟩ | ⟨_, _, hs⟩ | ⟨_, _, _, hs⟩ | ⟨hrun, hwait, op, hfetch, hs⟩ := step_cases s
  · cases hs.symm.trans h
    exact .inl rfl
  · cases hs.symm.trans h
    rw [scanKeys_eq]
    exact .inl rfl
  · cases hs.symm.trans h
    exact .inl rfl
  · obtain ⟨u, hu⟩ := exec_next (decode op) (beginCycle s)
    rw [hs, hu] at h
    exact .inr ⟨decode op, u, ⟨hrun, hwait, op, hfetch, rfl⟩, hu, endCycle_eq h⟩

/-- After a cycle no program load is admitted (R51, D27). -/
theorem step_closes_load (h : step s = .next t) : t.loadOpen = false := by
  obtain ht | ⟨i, u, -, hu, ht⟩ := step_idle_or_runs h
  · rw [ht, beginCycle_loadOpen]
  · rw [ht, (exec_frame hu).loadOpen, beginCycle_loadOpen]

/-- Settles O27, by the frame of the instruction: one that is not named as a store keeps memory. -/
theorem onlyTheTwoStoresChangeMemory : Obligations.OnlyTheTwoStoresChangeMemory := by
  intro s t h hmem
  obtain ht | ⟨i, u, hruns, hu, ht⟩ := step_idle_or_runs h
  · exact absurd (by rw [ht, beginCycle_mem]) hmem
  · refine ⟨i, hruns, ?_⟩
    by_contra hstores
    exact hmem (by rw [ht, (exec_frame hu).memory (by simpa using hstores), beginCycle_mem])

/-! ## The program load (R51) -/

/-- The memory after the program is copied to 0x200. -/
def State.loadedMemory (s : State) (prog : List Byte) : Memory := Memory.writeBytes s.mem Config.programBase prog

section Load

variable {prog : List Byte}

theorem loadProgram_of_fits (ho : s.loadOpen = true) (hlen : prog.length ≤ Config.programMax) :
    loadProgram prog s = .ok { s with mem := s.loadedMemory prog, loadOpen := false } := by
  rw [loadProgram, if_pos ho, if_pos hlen, State.loadedMemory]

theorem loadProgram_of_too_large (ho : s.loadOpen = true) (hlen : prog.length > Config.programMax) :
    loadProgram prog s = .error .programTooLarge := by
  rw [loadProgram, if_pos ho, if_neg (Nat.not_le.2 hlen)]

theorem loadProgram_of_closed (ho : s.loadOpen = false) : loadProgram prog s = .error .notAdmitted := by
  rw [loadProgram, if_neg (by simp [ho])]

end Load

/-- Settles O2: the load is one run of bytes written from 0x200, and it, like a cycle, closes the load. -/
theorem programLoadCopiesVerbatimOrIsRejected : Obligations.ProgramLoadCopiesVerbatimOrIsRejected := by
  intro s prog hwf ho
  refine ⟨fun hlen => ?_, loadProgram_of_too_large ho, fun t ht => loadProgram_of_closed (step_closes_load ht), rfl⟩
  have hfit : Config.programBase + prog.length ≤ Config.memSize := by
    simp only [Config.programBase, Config.memSize]
    omega
  exact ⟨_, loadProgram_of_fits ho hlen, rfl, fun _ hj => Memory.read_writeBytes_inside hwf hfit hj,
    fun _ ha => (Memory.read_writeBytes hwf hfit _).trans (if_neg ha), fun _ => loadProgram_of_closed rfl⟩

end Sys2Proof.Machine
end

section
/-! PROOFS. The encoding: decoder and encoder are inverse (30_encoding.md R61, R62, R64), the unmatched opcodes (R66), and the rows of the table (R65). -/

namespace Sys2Proof

variable {op w : Word} {m n : Nibble} {kk : Byte} {i : Instr}

/-! ## An opcode from its fields -/

theorem packNnn_of_fields (hm : fieldMajor op = m) : packNnn m (fieldNnn op) = op := by
  rw [← hm, packNnn_fields]

theorem packXkk_of_fields (hm : fieldMajor op = m) (hkk : fieldKk op = kk) : packXkk m (fieldX op) kk = op := by
  rw [← hm, ← hkk, packXkk_fields]

theorem packXyn_of_fields (hm : fieldMajor op = m) (hn : fieldN op = n) : packXyn m (fieldX op) (fieldY op) n = op := by
  rw [← hm, ← hn, packXyn_fields]

/-! ## The unmatched opcodes (R66) -/

/-- The minor codes of R66 (c) as a range: 8 and above, but for `E`. -/
theorem mem_unusedMinor8_iff (n : Nibble) : n ∈ unusedMinor8 ↔ n.toNat ≥ 8 ∧ n ≠ 0xE#4 := by
  revert n
  decide

/-- A minor code of `8xy_` is unused or has a row of R64. -/
theorem mem_unusedMinor8_or (n : Nibble) :
    n ∈ unusedMinor8 ∨ n ∈ [0x0#4, 0x1#4, 0x2#4, 0x3#4, 0x4#4, 0x5#4, 0x6#4, 0x7#4, 0xE#4] := by
  revert n
  decide

/-- The classes (a) to (f) of R66, in the fields of R61. -/
theorem isUnmatched_iff (op : Word) : isUnmatched op = true ↔
    (fieldMajor op = 0x0#4 ∧ op ≠ 0x00E0#16 ∧ op ≠ 0x00EE#16) ∨
    (fieldMajor op = 0x5#4 ∧ fieldN op ≠ 0x0#4) ∨
    (fieldMajor op = 0x8#4 ∧ fieldN op ∈ unusedMinor8) ∨
    (fieldMajor op = 0x9#4 ∧ fieldN op ≠ 0x0#4) ∨
    (fieldMajor op = 0xE#4 ∧ fieldKk op ∉ lowBytesE) ∨
    (fieldMajor op = 0xF#4 ∧ fieldKk op ∉ lowBytesF) := by
  simp [isUnmatched, fieldMajor, fieldN, fieldKk, or_assoc, and_assoc]

theorem decode8_of_unused (h : fieldN op ∈ unusedMinor8) : decode8 op = .nop op := by
  simp only [unusedMinor8, List.mem_cons, List.not_mem_nil, or_false] at h
  obtain h | h | h | h | h | h | h := h <;> simp [decode8, h]

theorem decodeE_of_unused (h : fieldKk op ∉ lowBytesE) : decodeE op = .nop op := by
  unfold decodeE
  split <;> simp_all [lowBytesE]

theorem decodeF_of_unused (h : fieldKk op ∉ lowBytesF) : decodeF op = .nop op := by
  unfold decodeF
  split <;> simp_all [lowBytesF]

/-- By the six classes of R66. -/
theorem decode_of_isUnmatched (h : isUnmatched op = true) : decode op = .nop op := by
  obtain ⟨hm, hcls, hret⟩ | ⟨hm, hn⟩ | ⟨hm, hn⟩ | ⟨hm, hn⟩ | ⟨hm, hkk⟩ | ⟨hm, hkk⟩ := (isUnmatched_iff op).1 h <;>
    simp only [decode, hm]
  · exact (if_neg hcls).trans (if_neg hret)
  · exact if_neg hn
  · exact decode8_of_unused hn
  · exact if_neg hn
  · exact decodeE_of_unused hkk
  · exact decodeF_of_unused hkk

/-! ## Decoding a word of the encoder -/

/-- Settles O7: the fields of a packed word are the operands, and the word of a well-formed no-op is unmatched. -/
theorem decodeOfEncodeIsTheInstruction : Obligations.DecodeOfEncodeIsTheInstruction := by
  intro i hwf
  cases i with
  | cls | ret => rfl
  | nop op => exact decode_of_isUnmatched hwf
  | _ => simp [encode, decode, decode8, decodeE, decodeF]

/-- Settles O6: each word is the encoder's word of its instruction, by evaluation. -/
theorem specWordsDecode : Obligations.SpecWordsDecode := by
  unfold Obligations.SpecWordsDecode
  decide

/-! ## Encoding what an opcode decodes to -/

/-- `i` is well formed and `op` is its word. -/
def Instr.StandsFor (i : Instr) (op : Word) : Prop := encode i = op ∧ i.wellFormed = true

theorem nop_standsFor (h : isUnmatched op = true) : (Instr.nop op).StandsFor op := ⟨rfl, h⟩

theorem decode0_standsFor (hm : fieldMajor op = 0x0#4) : (decode0 op).StandsFor op := by
  unfold decode0
  split
  · next hcls => exact ⟨hcls.symm, rfl⟩
  · split
    · next hret => exact ⟨hret.symm, rfl⟩
    · next hcls hret => exact nop_standsFor ((isUnmatched_iff op).2 (.inl ⟨hm, hcls, hret⟩))

/-- The shape of `5xy0` and `9xy0`: a row where the minor code is 0, the no-op elsewhere. -/
theorem ite_standsFor (hrow : fieldN op = 0x0#4 → i.StandsFor op) (hnop : fieldN op ≠ 0x0#4 → isUnmatched op = true) :
    (if fieldN op = 0x0#4 then i else .nop op).StandsFor op := by
  split
  · next hn => exact hrow hn
  · next hn => exact nop_standsFor (hnop hn)

theorem decode8_standsFor (hm : fieldMajor op = 0x8#4) : (decode8 op).StandsFor op := by
  obtain hn | hn := mem_unusedMinor8_or (fieldN op)
  · rw [decode8_of_unused hn]
    exact nop_standsFor ((isUnmatched_iff op).2 (by simp [hm, hn]))
  · simp only [List.mem_cons, List.not_mem_nil, or_false] at hn
    obtain h | h | h | h | h | h | h | h | h := hn <;> simp only [decode8, h] <;> exact ⟨packXyn_of_fields hm h, rfl⟩

theorem decodeE_standsFor (hm : fieldMajor op = 0xE#4) : (decodeE op).StandsFor op := by
  by_cases hkk : fieldKk op ∈ lowBytesE
  · simp only [lowBytesE, List.mem_cons, List.not_mem_nil, or_false] at hkk
    obtain h | h := hkk <;> simp only [decodeE, h] <;> exact ⟨packXkk_of_fields hm h, rfl⟩
  · rw [decodeE_of_unused hkk]
    exact nop_standsFor ((isUnmatched_iff op).2 (by simp [hm, hkk]))

theorem decodeF_standsFor (hm : fieldMajor op = 0xF#4) : (decodeF op).StandsFor op := by
  by_cases hkk : fieldKk op ∈ lowBytesF
  · simp only [lowBytesF, List.mem_cons, List.not_mem_nil, or_false] at hkk
    obtain h | h | h | h | h | h | h | h | h := hkk <;> simp only [decodeF, h] <;> exact ⟨packXkk_of_fields hm h, rfl⟩
  · rw [decodeF_of_unused hkk]
    exact nop_standsFor ((isUnmatched_iff op).2 (by simp [hm, hkk]))

/-- By the major opcode: the arms of `decode`, grouped by format (R62). -/
theorem decode_standsFor (op : Word) : (decode op).StandsFor op := by
  unfold decode
  split
  case h_1 hm => exact decode0_standsFor hm
  case h_2 hm | h_3 hm | h_11 hm | h_12 hm => exact ⟨packNnn_of_fields hm, rfl⟩
  case h_4 hm | h_5 hm | h_7 hm | h_8 hm | h_13 hm => exact ⟨packXkk_of_fields hm rfl, rfl⟩
  case h_14 hm => exact ⟨packXyn_of_fields hm rfl, rfl⟩
  case h_6 hm | h_10 hm =>
    exact ite_standsFor (fun hn => ⟨packXyn_of_fields hm hn, rfl⟩) fun hn => (isUnmatched_iff op).2 (by simp [hm, hn])
  case h_9 hm => exact decode8_standsFor hm
  case h_15 hm => exact decodeE_standsFor hm
  case h_16 hm => exact decodeF_standsFor hm
  case h_17 =>
    exfalso
    generalize fieldMajor op = m at *
    revert m
    decide

/-- Settles O8, by the arms of the decoder. -/
theorem encodeOfDecodeIsTheOpcode : Obligations.EncodeOfDecodeIsTheOpcode := decode_standsFor

/-- An instruction that is the no-op has kept its own opcode, and that opcode is unmatched. -/
theorem decode_eq_nop_iff : decode op = .nop w ↔ w = op ∧ isUnmatched op = true := by
  constructor
  · intro h
    obtain ⟨hword, hwf⟩ := h ▸ decode_standsFor op
    cases hword
    exact ⟨rfl, hwf⟩
  · rintro ⟨rfl, h⟩
    exact decode_of_isUnmatched h

/-- Settles O10: a no-op is an unmatched opcode, and those are the classes (a) to (f). -/
theorem noOpsAreTheUnmatchedOpcodes : Obligations.NoOpsAreTheUnmatchedOpcodes := by
  intro op
  refine ⟨?_, fun w h => (decode_eq_nop_iff.1 h).1⟩
  simp [decode_eq_nop_iff, isUnmatched_iff, mem_unusedMinor8_iff, lowBytesE, lowBytesF]

/-! ## The row of an opcode (R65) -/

theorem fieldMajor_and (a b : Word) : fieldMajor (a &&& b) = fieldMajor a &&& fieldMajor b := BitVec.extractLsb'_and

theorem fieldN_and (a b : Word) : fieldN (a &&& b) = fieldN a &&& fieldN b := BitVec.extractLsb'_and

theorem fieldKk_and (a b : Word) : fieldKk (a &&& b) = fieldKk a &&& fieldKk b := BitVec.extractLsb'_and

section Selects

variable {r : OpcodeRow} (h : r.selects op = true)
include h

theorem eq_value_of_selects (hmask : r.mask = 0xFFFF#16) : op = r.value := by
  rw [← eq_of_beq h, hmask]
  exact BitVec.and_allOnes.symm

theorem fieldMajor_of_selects (hmask : fieldMajor r.mask = 0xF#4) : fieldMajor op = fieldMajor r.value := by
  rw [← eq_of_beq h, fieldMajor_and, hmask, Laws.and_ones4]

theorem fieldN_of_selects (hmask : fieldN r.mask = 0xF#4) : fieldN op = fieldN r.value := by
  rw [← eq_of_beq h, fieldN_and, hmask, Laws.and_ones4]

theorem fieldKk_of_selects (hmask : fieldKk r.mask = 0xFF#8) : fieldKk op = fieldKk r.value := by
  rw [← eq_of_beq h, fieldKk_and, hmask, Laws.and_ones8]

end Selects

/-- An opcode that selects one of the 34 rows decodes to that row: the fields under the row's mask are those of the row's value, and they pick the decoder's arm. -/
theorem row_decode_of_selects {j : Nat} {r : OpcodeRow} (hj : j < 34) (hr : opcodeRows[j]? = some r)
    (h : r.selects op = true) : (decode op).row = j := by
  match j, hj, hr with
  | 0, _, rfl | 1, _, rfl =>
    cases eq_value_of_selects h rfl
    rfl
  | 2, _, rfl | 3, _, rfl | 4, _, rfl | 5, _, rfl | 7, _, rfl | 8, _, rfl | 19, _, rfl | 20, _, rfl | 21, _, rfl
  | 22, _, rfl =>
    simp only [decode, fieldMajor_of_selects h rfl]
    rfl
  | 6, _, rfl | 18, _, rfl =>
    simp only [decode, fieldMajor_of_selects h rfl, fieldN_of_selects h rfl]
    rfl
  | 9, _, rfl | 10, _, rfl | 11, _, rfl | 12, _, rfl | 13, _, rfl | 14, _, rfl | 15, _, rfl | 16, _, rfl | 17, _, rfl =>
    simp only [decode, decode8, fieldMajor_of_selects h rfl, fieldN_of_selects h rfl]
    rfl
  | 23, _, rfl | 24, _, rfl =>
    simp only [decode, decodeE, fieldMajor_of_selects h rfl, fieldKk_of_selects h rfl]
    rfl
  | 25, _, rfl | 26, _, rfl | 27, _, rfl | 28, _, rfl | 29, _, rfl | 30, _, rfl | 31, _, rfl | 32, _, rfl | 33, _, rfl =>
    simp only [decode, decodeF, fieldMajor_of_selects h rfl, fieldKk_of_selects h rfl]
    rfl
  | _ + 34, hj, _ => omega

/-- The word of every well-formed instruction selects the instruction's own row. -/
theorem encoding_statement : ∀ i : Instr, Laws.Encoding.Statement i
  | .cls => Laws.Encoding.cls
  | .ret => Laws.Encoding.ret
  | .jp nnn => Laws.Encoding.jp nnn
  | .call nnn => Laws.Encoding.call nnn
  | .seImm x kk => Laws.Encoding.seImm x kk
  | .sneImm x kk => Laws.Encoding.sneImm x kk
  | .seReg x y => Laws.Encoding.seReg x y
  | .ldImm x kk => Laws.Encoding.ldImm x kk
  | .addImm x kk => Laws.Encoding.addImm x kk
  | .ldReg x y => Laws.Encoding.ldReg x y
  | .orReg x y => Laws.Encoding.orReg x y
  | .andReg x y => Laws.Encoding.andReg x y
  | .xorReg x y => Laws.Encoding.xorReg x y
  | .addReg x y => Laws.Encoding.addReg x y
  | .subReg x y => Laws.Encoding.subReg x y
  | .shr x y => Laws.Encoding.shr x y
  | .subnReg x y => Laws.Encoding.subnReg x y
  | .shl x y => Laws.Encoding.shl x y
  | .sneReg x y => Laws.Encoding.sneReg x y
  | .ldI nnn => Laws.Encoding.ldI nnn
  | .jpV0 nnn => Laws.Encoding.jpV0 nnn
  | .rnd x kk => Laws.Encoding.rnd x kk
  | .drw x y n => Laws.Encoding.drw x y n
  | .skp x => Laws.Encoding.skp x
  | .sknp x => Laws.Encoding.sknp x
  | .ldVxDt x => Laws.Encoding.ldVxDt x
  | .ldVxK x => Laws.Encoding.ldVxK x
  | .ldDtVx x => Laws.Encoding.ldDtVx x
  | .ldStVx x => Laws.Encoding.ldStVx x
  | .addI x => Laws.Encoding.addI x
  | .ldF x => Laws.Encoding.ldF x
  | .ldB x => Laws.Encoding.ldB x
  | .ldMemVx x => Laws.Encoding.ldMemVx x
  | .ldVxMem x => Laws.Encoding.ldVxMem x
  | .nop op => Laws.Encoding.nop op

/-- An opcode selects the row it decodes to. -/
theorem decode_row_selects (op : Word) : ∃ r, opcodeRows[(decode op).row]? = some r ∧ r.selects op = true := by
  obtain ⟨hword, hwf⟩ := decode_standsFor op
  simpa only [hword] using encoding_statement (decode op) hwf

/-- The row an opcode decodes to is the first it selects: it selects that row, and an earlier one would be the row it decodes to. -/
theorem findIdx?_selects_eq_row (op : Word) : opcodeRows.findIdx? (·.selects op) = some (decode op).row := by
  obtain ⟨r, hr, hsel⟩ := decode_row_selects op
  obtain ⟨hlt, hget⟩ := List.getElem?_eq_some_iff.1 hr
  refine List.findIdx?_eq_some_iff_getElem.2 ⟨hlt, by rwa [hget], fun j hj hselj => ?_⟩
  have hlast : (decode op).row < 35 := hlt
  have hrow : (decode op).row = j :=
    row_decode_of_selects (by omega) (List.getElem?_eq_getElem (hj.trans hlt)) (by simpa using hselj)
  omega

/-- Settles O9: two rows that select an opcode are both the row it decodes to. -/
theorem decodeTakesTheFirstSelectedRow : Obligations.DecodeTakesTheFirstSelectedRow := by
  refine ⟨findIdx?_selects_eq_row, fun op j k p q hj hk hp hq hsp hsq => ?_, fun x y y' s => ⟨rfl, rfl⟩⟩
  exact (row_decode_of_selects hj hp hsp).symm.trans (row_decode_of_selects hk hq hsq)

end Sys2Proof
end

section
/-! PROOFS. How an instruction ends: it completes with the PC effect of R87, or it raises the fault of the tables of R170 and R172 to R175. And what it does with the inputs
it does not read (R80, R16). -/

namespace Sys2Proof.Machine

open Sys2Proof.Spec

variable {i : Instr} {s t : State}

/-! ## The targets of the PC effects (R63, R86, R87) -/

theorem target_skipIf (c : Bool) (pc : Word) : (PcEffect.skipIf c).target pc = if c = true then pc + 4 else pc + 2 := by
  cases c <;> rfl

theorem target_skipIf_eq {α : Type} [DecidableEq α] (a b : α) (pc : Word) :
    (PcEffect.skipIf (a == b)).target pc = if a = b then pc + 4 else pc + 2 := by
  simp [target_skipIf]

theorem target_skipIf_ne {α : Type} [DecidableEq α] (a b : α) (pc : Word) :
    (PcEffect.skipIf (a != b)).target pc = if a = b then pc + 2 else pc + 4 := by
  simp [target_skipIf]

theorem target_skipIf_not (c : Bool) (pc : Word) : (PcEffect.skipIf !c).target pc = if c = true then pc + 2 else pc + 4 := by
  cases c <;> rfl

theorem absoluteAddr_eq_ofNat (nnn : Addr) : absoluteAddr nnn = BitVec.ofNat 16 nnn.toNat := (BitVec.ofNat_toNat 16 nnn).symm

/-- The top entry of a stack in use (R19). -/
theorem stack_getD_pred (hsp : 0 < s.sp.val) : s.stack.getD (s.sp.val - 1) 0 = s.stack[s.sp.val - 1]'(by omega) := by
  have htop : s.sp.val - 1 < 16 := by omega
  simp [Vector.getD, htop]

theorem offsetTarget_eq_ofNat (nnn : Addr) (v : Byte) : offsetTarget nnn v = BitVec.ofNat 16 (nnn.toNat + v.toNat) := by
  rw [BitVec.ofNat_add, BitVec.ofNat_toNat, BitVec.ofNat_toNat, offsetTarget]

/-! ## The conditions of the faults (R172 to R175) -/

theorem inMemory_eq_false_iff (a n : Nat) : inMemory a n = false ↔ n > 0 ∧ a + n - 1 > 4095 := by
  rw [← Bool.not_eq_true, inMemory_iff]
  omega

/-- What a look at a key can give (R160, D15). -/
theorem keyPressed_cases (s : State) (v : Byte) :
    (¬ v.toNat > 15 ∧ s.keyPressed v = some (s.keypad.getLsbD v.toNat)) ∨ (v.toNat > 15 ∧ s.keyPressed v = none) := by
  by_cases h : v.toNat > 15
  · exact .inr ⟨h, if_neg (Nat.not_lt.2 h)⟩
  · exact .inl ⟨h, if_pos (by simp only [Config.numKeys]; omega)⟩

/-! ## The end of an instruction -/

/-- The elements that taking a fault writes (R180). -/
def State.faultRecord (s : State) : Bool × FaultCause × Word × Word := (s.halted, s.faultCause, s.faultPc, s.faultOpcode)

/-- The two ends of an instruction: no tabulated condition holds, the fault elements stay and `pc` is the one of R87; or one holds, and its fault is all that happens. -/
inductive Ends (i : Instr) (s : State) : Result → Prop where
  | completes {t : State} (hf : faultOf i s = .none) (hrecord : t.faultRecord = s.faultRecord) (hpc : t.pc = pcAfter i s) :
      Ends i s (.next t)
  | faults {c : FaultCause} (hc : c ≠ .none) (hf : faultOf i s = c) : Ends i s (.next (enterHalted c (encode i) s))

/-- By the instructions: the check each makes is the condition of its fault. -/
theorem exec_ends (i : Instr) (s : State) : Ends i s (exec i s) := by
  cases i with
  | ret =>
    obtain ⟨hsp, he⟩ | ⟨hsp, he⟩ := pop_cases s <;> rw [exec, execRet, he]
    · exact .completes (if_neg (Nat.ne_of_gt hsp)) rfl (stack_getD_pred hsp).symm
    · exact .faults (by decide) (if_pos hsp)
  | call nnn =>
    obtain ⟨hsp, he⟩ | ⟨hsp, he⟩ := push_cases s (s.pc + 2) <;> rw [exec, execCall, he]
    · exact .completes (if_neg (Nat.ne_of_lt hsp)) rfl (absoluteAddr_eq_ofNat nnn)
    · exact .faults (by decide) (if_pos hsp)
  | jp nnn => exact .completes rfl rfl (absoluteAddr_eq_ofNat nnn)
  | jpV0 nnn => exact .completes rfl rfl (offsetTarget_eq_ofNat nnn _)
  | seImm | seReg => exact .completes rfl rfl (target_skipIf_eq _ _ _)
  | sneImm | sneReg => exact .completes rfl rfl (target_skipIf_ne _ _ _)
  | drw x y n =>
    obtain ⟨hin, he⟩ | ⟨hout, he⟩ := loadBytes_cases s s.I.toNat n.toNat <;> rw [exec, execDrw, he]
    · exact .completes (if_neg fun h => by simp [(inMemory_eq_false_iff _ _).2 h] at hin) rfl rfl
    · exact .faults (by decide) (if_pos ((inMemory_eq_false_iff _ _).1 hout))
  | ldB x =>
    obtain ⟨hin, he⟩ | ⟨hout, he⟩ := storeBytes_cases s s.I.toNat (decimalDigits (s.getV x)) <;> rw [exec, execLdB, he]
    · exact .completes (if_neg fun h => by simp [(inMemory_eq_false_iff s.I.toNat 3).2 ⟨by decide, h⟩] at hin) rfl rfl
    · exact .faults (by decide) (if_pos ((inMemory_eq_false_iff _ _).1 hout).2)
  | ldMemVx x =>
    obtain ⟨hin, he⟩ | ⟨hout, he⟩ := storeBytes_cases s s.I.toNat (s.regsUpTo x) <;>
      rw [exec, execLdMemVx, he] <;> rw [length_regsUpTo] at *
    · exact .completes (if_neg fun h => by simp [(inMemory_eq_false_iff s.I.toNat (x.toNat + 1)).2 ⟨by omega, h⟩] at hin) rfl rfl
    · exact .faults (by decide) (if_pos ((inMemory_eq_false_iff _ _).1 hout).2)
  | ldVxMem x =>
    obtain ⟨hin, he⟩ | ⟨hout, he⟩ := loadBytes_cases s s.I.toNat (x.toNat + 1) <;> rw [exec, execLdVxMem, he]
    · refine .completes (if_neg fun h => by simp [(inMemory_eq_false_iff s.I.toNat (x.toNat + 1)).2 ⟨by omega, h⟩] at hin) ?_ ?_ <;>
        rw [setVFrom_eq] <;> rfl
    · exact .faults (by decide) (if_pos ((inMemory_eq_false_iff _ _).1 hout).2)
  | skp x =>
    obtain ⟨hkey, he⟩ | ⟨hkey, he⟩ := keyPressed_cases s (s.getV x) <;> rw [exec, execSkp, he]
    · exact .completes (if_neg hkey) rfl (target_skipIf _ _)
    · exact .faults (by decide) (if_pos hkey)
  | sknp x =>
    obtain ⟨hkey, he⟩ | ⟨hkey, he⟩ := keyPressed_cases s (s.getV x) <;> rw [exec, execSknp, he]
    · exact .completes (if_neg hkey) rfl (target_skipIf_not _ _)
    · exact .faults (by decide) (if_pos hkey)
  | _ => exact .completes rfl rfl rfl

theorem exec_of_faultOf_eq_none (hf : faultOf i s = .none) :
    ∃ t, exec i s = .next t ∧ t.faultRecord = s.faultRecord ∧ t.pc = pcAfter i s := by
  generalize hr : exec i s = r
  obtain ⟨-, hrecord, hpc⟩ | ⟨hc, rfl⟩ := hr ▸ exec_ends i s
  · exact ⟨_, rfl, hrecord, hpc⟩
  · exact absurd hf hc

theorem exec_of_faultOf_ne_none (hf : faultOf i s ≠ .none) :
    exec i s = .next (enterHalted (faultOf i s) (encode i) s) := by
  generalize hr : exec i s = r
  obtain ⟨hnone, -, -⟩ | ⟨-, rfl⟩ := hr ▸ exec_ends i s
  · exact absurd hnone hf
  · rfl

/-- Settles O25, by the two ends of an instruction. -/
theorem everyOtherInstructionCompletes : Obligations.EveryOtherInstructionCompletes := by
  intro i s
  refine ⟨fun hf => ?_, fun hf => ⟨_, exec_of_faultOf_ne_none hf, rfl⟩⟩
  obtain ⟨t, ht, hrecord, hpc⟩ := exec_of_faultOf_eq_none hf
  simp only [State.faultRecord, Prod.mk.injEq] at hrecord
  exact ⟨t, ht, hpc, hrecord⟩

/-! ## The inputs of a cycle in an instruction (R80, R16) -/

/-- The state with another key snapshot and another random byte. -/
def State.withInputs (s : State) (keys : Word) (b : Byte) : State := { s with keypad := keys, rnd := b }

section WithInputs

variable (s) (keys : Word) (b : Byte)

@[simp] theorem withInputs_pc : (s.withInputs keys b).pc = s.pc := rfl
@[simp] theorem withInputs_I : (s.withInputs keys b).I = s.I := rfl
@[simp] theorem getV_withInputs (r : Reg) : (s.withInputs keys b).getV r = s.getV r := rfl
@[simp] theorem regsUpTo_withInputs (x : Reg) : (s.withInputs keys b).regsUpTo x = s.regsUpTo x := rfl
@[simp] theorem loadBytes_withInputs (a n : Nat) : (s.withInputs keys b).loadBytes a n = s.loadBytes a n := rfl
@[simp] theorem keyPressed_withInputs (v : Byte) : (s.withInputs s.keypad b).keyPressed v = s.keyPressed v := rfl

@[simp] theorem storeBytes_withInputs (a : Nat) (vs : List Byte) :
    (s.withInputs keys b).storeBytes a vs = (s.storeBytes a vs).map (·.withInputs keys b) := by
  unfold State.storeBytes
  split <;> rfl

@[simp] theorem push_withInputs (v : Word) :
    (s.withInputs keys b).push v = (s.push v).map (·.withInputs keys b) := by
  obtain ⟨hsp, he⟩ | ⟨hsp, he⟩ := push_cases s v <;> rw [he]
  · exact dif_pos hsp
  · exact dif_neg (Nat.not_lt.2 (Nat.le_of_eq hsp.symm))

@[simp] theorem pop_withInputs : (s.withInputs keys b).pop = s.pop.map (Prod.map id (·.withInputs keys b)) := by
  obtain ⟨hsp, he⟩ | ⟨hsp, he⟩ := pop_cases s <;> rw [he]
  · exact dif_pos hsp
  · exact dif_neg (Nat.not_lt.2 (Nat.le_of_eq hsp))

@[simp] theorem setVFrom_withInputs (j : Nat) (vs : List Byte) :
    (s.withInputs keys b).setVFrom j vs = (s.setVFrom j vs).withInputs keys b := by
  induction vs generalizing s j with
  | nil => rfl
  | cons v vs ih => exact ih (s.setV (BitVec.ofNat 4 j) v) (j + 1)

end WithInputs

/-- By the instructions: one that checks answers its check as before, and the rest of the state is carried over. -/
theorem exec_withInputs {keys : Word} {b : Byte} (h : exec i s = .next t) (hkeys : readsKeypad i = true → keys = s.keypad)
    (hrnd : readsRandom i = true → b = s.rnd) : exec i (s.withInputs keys b) = .next (t.withInputs keys b) := by
  cases i with
  | ret =>
    simp only [exec, execRet, pop_withInputs] at h ⊢
    cases he : s.pop <;> rw [he] at h <;> cases h <;> rfl
  | call nnn =>
    simp only [exec, execCall, withInputs_pc, push_withInputs] at h ⊢
    cases he : s.push (s.pc + 2) <;> rw [he] at h <;> cases h <;> rfl
  | ldB x =>
    simp only [exec, execLdB, withInputs_I, getV_withInputs, storeBytes_withInputs] at h ⊢
    cases he : s.storeBytes s.I.toNat (decimalDigits (s.getV x)) <;> rw [he] at h <;> cases h <;> rfl
  | ldMemVx x =>
    simp only [exec, execLdMemVx, withInputs_I, regsUpTo_withInputs, storeBytes_withInputs] at h ⊢
    cases he : s.storeBytes s.I.toNat (s.regsUpTo x) <;> rw [he] at h <;> cases h <;> rfl
  | ldVxMem x =>
    simp only [exec, execLdVxMem, withInputs_I, loadBytes_withInputs, setVFrom_withInputs] at h ⊢
    cases he : s.loadBytes s.I.toNat (x.toNat + 1) <;> rw [he] at h <;> cases h <;> rfl
  | drw x y n =>
    simp only [exec, execDrw, withInputs_I, loadBytes_withInputs] at h ⊢
    cases he : s.loadBytes s.I.toNat n.toNat <;> rw [he] at h <;> cases h <;> rfl
  | skp x =>
    obtain rfl := hkeys rfl
    simp only [exec, execSkp, getV_withInputs, keyPressed_withInputs] at h ⊢
    cases he : s.keyPressed (s.getV x) <;> rw [he] at h <;> cases h <;> rfl
  | sknp x =>
    obtain rfl := hkeys rfl
    simp only [exec, execSknp, getV_withInputs, keyPressed_withInputs] at h ⊢
    cases he : s.keyPressed (s.getV x) <;> rw [he] at h <;> cases h <;> rfl
  | rnd x kk =>
    obtain rfl := hrnd rfl
    cases h
    rfl
  | _ => cases h; rfl

/-- Settles O29: each part is the change of both inputs with the other one kept, which the instruction keeps too. -/
theorem inputsAreReadOnlyWhereNamed : Obligations.InputsAreReadOnlyWhereNamed := by
  intro i s t h
  have hframe : Frame i s t := exec_frame h
  refine ⟨fun hi b => ?_, fun hi keys => ?_⟩
  · have ht : t.withInputs s.keypad b = { t with rnd := b } := by rw [← hframe.keypad, State.withInputs]
    exact (exec_withInputs h (fun _ => rfl) (by simp [hi])).trans (congrArg _ ht)
  · have ht : t.withInputs keys s.rnd = { t with keypad := keys } := by rw [← hframe.rnd, State.withInputs]
    exact (exec_withInputs h (by simp [hi]) (fun _ => rfl)).trans (congrArg _ ht)

end Sys2Proof.Machine
end

section
/-! PROOFS. The cycle (40_cycle.md): what it is in each of the three states of R91, and what follows for the inputs, the timers, `dirty` and the states themselves. -/

namespace Sys2Proof.Machine

open Sys2Proof.Spec

variable {i j : Instr} {s t u : State} {keys : Word} {k : BitVec 4}

/-! ## One cycle, by what it begins with (R81) -/

theorem step_of_halted (h : s.halted = true) : step s = .next (beginCycle s) := if_pos h

theorem step_of_waiting (hrun : s.halted = false) (hwait : s.waiting = true) : step s = .next (scanKeys (beginCycle s)) := by
  simp [step, hrun, hwait]

theorem step_of_runs (h : runs s i) : step s = endCycle (exec i (beginCycle s)) := by
  obtain ⟨hrun, hwait, op, hfetch, rfl⟩ := h
  simp [step, hrun, hwait, hfetch]

/-- A cycle executes at most one instruction. -/
theorem runs_unique (hi : runs s i) (hj : runs s j) : i = j := by
  obtain ⟨-, -, op, hop, rfl⟩ := hi
  obtain ⟨-, -, op', hop', rfl⟩ := hj
  cases hop.symm.trans hop'
  rfl

theorem pc_lt_of_runs (h : runs s i) : s.pc.toNat < 0xFFF := by
  obtain ⟨-, -, op, hop, -⟩ := h
  obtain ⟨hpc, -⟩ | ⟨-, hnone⟩ := fetch_cases s
  · omega
  · cases hnone.symm.trans hop

/-- The instruction of a cycle raises its fault and that is the end, or it completes in the Running state and the timers count down (R88, R180). -/
theorem step_runs_cases (hi : runs s i) (hstep : step s = .next t) :
    (faultOf i (beginCycle s) ≠ .none ∧ t = enterHalted (faultOf i (beginCycle s)) (encode i) (beginCycle s)) ∨
    (faultOf i (beginCycle s) = .none ∧ ∃ u, exec i (beginCycle s) = .next u ∧ u.halted = false ∧ t = tickTimers u) := by
  rw [step_of_runs hi] at hstep
  by_cases hf : faultOf i (beginCycle s) = .none
  · obtain ⟨u, hu, hrecord, -⟩ := exec_of_faultOf_eq_none hf
    have hrun : u.halted = false := (congrArg Prod.fst hrecord).trans hi.1
    rw [hu, endCycle_running hrun] at hstep
    cases hstep
    exact .inr ⟨hf, u, hu, hrun, rfl⟩
  · rw [exec_of_faultOf_ne_none hf, endCycle_halted rfl] at hstep
    cases hstep
    exact .inl ⟨hf, rfl⟩

/-- A cycle whose instruction answers a state without a fault counts the timers down in it. -/
theorem step_of_runs_finish {e : PcEffect} (hi : runs s i) (he : exec i (beginCycle s) = finish e u) (hu : u.halted = false) :
    step s = .next (tickTimers (applyEffect e u)) := by
  rw [step_of_runs hi, he]
  exact endCycle_running hu

/-- A Running cycle fetches outside memory, or executes the one instruction at `pc` (R85). -/
theorem running_cases (hrun : s.halted = false) (hwait : s.waiting = false) (hstep : step s = .next t) :
    (s.pc.toNat ≥ 0xFFF ∧ t = enterHalted .fetchOutOfBounds 0 (beginCycle s)) ∨ ∃ i, runs s i := by
  obtain ⟨-, hf⟩ | ⟨hpc, hf⟩ := fetch_cases s
  · exact .inr ⟨_, hrun, hwait, _, hf, rfl⟩
  · have hs : step s = .next (enterHalted .fetchOutOfBounds 0 (beginCycle s)) := by simp [step, hrun, hwait, hf]
    cases hs.symm.trans hstep
    exact .inl ⟨hpc, rfl⟩

theorem countDown_eq (v : Byte) : countDown v = if v = 0 then 0 else v - 1 := by
  by_cases hv : v = 0
  · subst hv
    rfl
  · rw [countDown, if_pos (by bv_omega), if_neg hv]

theorem endCycle_next (u : State) : endCycle (.next u) = .next (if u.halted then u else tickTimers u) := rfl

/-- Settles O11: the two bytes at `pc` are the fetch, and the countdown is that of both timers. -/
theorem stepRunsTheDecodedInstruction : Obligations.StepRunsTheDecodedInstruction := by
  intro s i hrun hwait hpc hdecode
  have hstep : step s = endCycle (exec i (beginCycle s)) := step_of_runs ⟨hrun, hwait, _, fetch_of_inside hpc, hdecode⟩
  refine ⟨hstep, rfl, fun t ht => ?_⟩
  rw [hstep, ht, endCycle_next, tickTimers, countDown_eq, countDown_eq]

/-- Settles O14, by the Halted cycle, which is the start of every cycle and no more. -/
theorem haltedCycleChangesNothingElse : Obligations.HaltedCycleChangesNothingElse := by
  intro s h
  exact ⟨_, step_of_halted h, rfl, rfl⟩

/-! ## There is always a next cycle (R92) -/

theorem step_next (s : State) : ∃ t, step s = .next t := by
  obtain ⟨-, hs⟩ | ⟨-, -, hs⟩ | ⟨-, -, -, hs⟩ | ⟨-, -, op, -, hs⟩ := step_cases s
  · exact ⟨_, hs⟩
  · exact ⟨_, hs⟩
  · exact ⟨_, hs⟩
  · obtain ⟨u, hu⟩ := exec_next (decode op) (beginCycle s)
    exact ⟨_, by rw [hs, hu, endCycle_next]⟩

/-- By induction on the number of cycles. -/
theorem run_next (k : Nat) (s : State) : ∃ t, Host.Core.run Sys2Proof.core k s = .next t := by
  induction k generalizing s with
  | zero => exact ⟨s, rfl⟩
  | succ k ih =>
    obtain ⟨t, ht⟩ := step_next s
    rw [run_succ ht]
    exact ih t

/-- Settles O17, by the cases of a cycle and induction on their number. -/
theorem everyCycleHasANextState : Obligations.EveryCycleHasANextState := ⟨step_next, run_next⟩

/-! ## The key scan (R84) -/

/-- The least pressed key is the one that is pressed with none below it. -/
theorem leastKey_eq_some_iff : leastKey keys = some k ↔ keys.getLsbD k.toNat = true ∧ ∀ j < k.toNat, keys.getLsbD j = false := by
  refine ⟨leastKey_some, fun ⟨hk, hbelow⟩ => ?_⟩
  cases hl : leastKey keys with
  | none =>
    rw [leastKey_none.1 hl] at hk
    simp at hk
  | some k' =>
    obtain ⟨hk', hbelow'⟩ := leastKey_some hl
    obtain hlt | heq | hgt := Nat.lt_trichotomy k'.toNat k.toNat
    · simp [hbelow _ hlt] at hk'
    · rw [BitVec.eq_of_toNat_eq heq]
    · simp [hbelow' _ hgt] at hk

theorem exists_leastKey (h : keys ≠ 0) : ∃ k, leastKey keys = some k :=
  Option.ne_none_iff_exists'.1 fun hnone => h (leastKey_none.1 hnone)

theorem scanKeys_of_no_key (h : s.keypad = 0) : scanKeys s = s := by
  rw [scanKeys, leastKey_none.2 h]

theorem scanKeys_of_leastKey (h : leastKey s.keypad = some k) :
    scanKeys s = { s.setV s.waitReg (k.setWidth 8) with waiting := false } := by
  rw [scanKeys, h]

/-- Settles O15, by the two ends of the key scan. -/
theorem waitCycleTakesTheLeastKey : Obligations.WaitCycleTakesTheLeastKey := by
  intro s hrun hwait
  rw [step_of_waiting hrun hwait]
  refine ⟨fun hnone => by rw [scanKeys_of_no_key hnone], fun k hk hbelow => ?_, fun hsome => ?_⟩
  · have hleast : leastKey (beginCycle s).keypad = some k := leastKey_eq_some_iff.2 ⟨hk, hbelow⟩
    refine ⟨_, rfl, scanKeys_of_leastKey hleast ▸ rfl, fun r => ?_⟩
    rw [scanKeys_of_leastKey hleast, BitVec.ofNat_toNat]
    exact getV_setV (beginCycle s) s.waitReg r _
  · obtain ⟨k, hk⟩ := exists_leastKey hsome
    exact ⟨k, leastKey_some hk⟩

/-! ## The key latch and `dirty` (R83, R154) -/

/-- A display instruction that completes leaves `dirty` set (R150, R151). -/
theorem exec_dirty_of_draws (hi : drawsPixels i = true) (hf : faultOf i s = .none) (h : exec i s = .next t) : t.dirty = true := by
  cases i with
  | cls =>
    cases h
    rfl
  | drw x y n =>
    obtain ⟨-, he⟩ | ⟨hout, -⟩ := loadBytes_cases s s.I.toNat n.toNat
    · rw [exec, execDrw, he] at h
      cases h
      rfl
    · have hfault : faultOf (.drw x y n) s = .memoryOutOfBounds := if_pos ((inMemory_eq_false_iff _ _).1 hout)
      cases hfault.symm.trans hf
  | _ => cases hi

/-- After a cycle `dirty` tells whether it executed a display instruction without a fault (R154, D10). -/
theorem step_dirty_iff (h : step s = .next t) :
    t.dirty = true ↔ ∃ i, runs s i ∧ drawsPixels i = true ∧ t.halted = false := by
  constructor
  · intro hdirty
    obtain ht | ⟨i, -, hi, -, -⟩ := step_idle_or_runs h
    · rw [ht, beginCycle_dirty] at hdirty
      cases hdirty
    · obtain ⟨-, rfl⟩ | ⟨-, u, hu, hrun, rfl⟩ := step_runs_cases hi h
      · cases hdirty
      · refine ⟨i, hi, ?_, hrun⟩
        by_contra hdraws
        have hkept : u.dirty = false := ((exec_frame hu).pixels (by simpa using hdraws)).2
        cases hkept.symm.trans hdirty
  · rintro ⟨i, hi, hdraws, hrun⟩
    obtain ⟨-, rfl⟩ | ⟨hf, u, hu, -, rfl⟩ := step_runs_cases hi h
    · cases hrun
    · rw [tickTimers_dirty, exec_dirty_of_draws hdraws hf hu]

/-- Every cycle takes the coming inputs, and no instruction changes them after that. -/
theorem step_inputs (h : step s = .next t) : t.keypad = s.nextKeys ∧ t.pending = s.pending.tail := by
  obtain ht | ⟨i, u, -, hu, ht⟩ := step_idle_or_runs h
  · rw [ht]
    exact ⟨rfl, rfl⟩
  · rw [ht]
    exact ⟨(exec_frame hu).keypad, (exec_frame hu).pending⟩

/-- Settles O12, by the frame of the instruction for the inputs and by the display instructions for `dirty`. -/
theorem everyCycleLatchesKeysAndClearsDirty : Obligations.EveryCycleLatchesKeysAndClearsDirty := by
  intro s t h
  obtain ⟨hkeys, hpending⟩ := step_inputs h
  refine ⟨hkeys, fun input rest hs => ?_, step_dirty_iff h⟩
  rw [hpending, State.nextKeys, State.nextRnd, hs]
  exact ⟨rfl, rfl, rfl⟩

/-! ## The timers (R88) -/

theorem tickTimers_toNat (s : State) : (tickTimers s).DT.toNat = s.DT.toNat - 1 ∧ (tickTimers s).ST.toNat = s.ST.toNat - 1 :=
  ⟨countDown_toNat s.DT, countDown_toNat s.ST⟩

theorem step_timers_of_idle (hidle : s.halted = true ∨ s.waiting = true) (h : step s = .next t) : t.DT = s.DT ∧ t.ST = s.ST := by
  obtain ⟨-, hs⟩ | ⟨-, -, hs⟩ | ⟨hrun, hwait, -⟩ | ⟨hrun, hwait, -⟩ := step_cases s
  · cases hs.symm.trans h
    exact ⟨rfl, rfl⟩
  · cases hs.symm.trans h
    rw [scanKeys_eq]
    exact ⟨rfl, rfl⟩
  · simp [hrun, hwait] at hidle
  · simp [hrun, hwait] at hidle

/-- Settles O16: the countdown comes after the instruction, in no cycle without one, and so after the moves between a register and a timer. -/
theorem timersCountDownAfterTheInstruction : Obligations.TimersCountDownAfterTheInstruction := by
  refine ⟨fun s u i hi hu => ?_, fun s t hidle h => step_timers_of_idle hidle h, fun s t x h => ?_⟩
  · obtain ⟨t, ht⟩ := step_next s
    obtain ⟨hf, rfl⟩ | ⟨-, u', hu', hrun, rfl⟩ := step_runs_cases hi ht
    · cases (exec_of_faultOf_ne_none hf).symm.trans hu
      exact ⟨fun _ => ⟨ht, rfl, rfl⟩, nofun⟩
    · cases hu'.symm.trans hu
      exact ⟨fun hhalted => by simp [hrun] at hhalted, fun _ => ⟨_, ht, rfl, tickTimers_toNat u⟩⟩
  · refine ⟨fun hi => ?_, fun hi => ?_, fun hi => ?_⟩ <;> cases (step_of_runs_finish hi rfl hi.1).symm.trans h
    · exact getV_setV_self (beginCycle s) x s.DT
    · exact countDown_toNat (s.getV x)
    · have hST : (countDown (s.getV x)).toNat = (s.getV x).toNat - 1 := countDown_toNat (s.getV x)
      have hquiet : (s.getV x).toNat = 1 → ¬ (countDown (s.getV x)).toNat > 0 := by omega
      exact ⟨hST, fun hone => decide_eq_false (hquiet hone)⟩

/-! ## The three states (R91) -/

theorem mode_eq_isHalted_iff : s.mode = .isHalted ↔ s.halted = true := by
  cases hh : s.halted <;> cases hw : s.waiting <;> simp [State.mode, hh, hw]

theorem mode_eq_waitingForKey_iff : s.mode = .waitingForKey ↔ s.halted = false ∧ s.waiting = true := by
  cases hh : s.halted <;> cases hw : s.waiting <;> simp [State.mode, hh, hw]

theorem mode_eq_running_iff : s.mode = .running ↔ s.halted = false ∧ s.waiting = false := by
  cases hh : s.halted <;> cases hw : s.waiting <;> simp [State.mode, hh, hw]

/-- A cycle that begins waiting goes on waiting or ends in the Running state. -/
theorem step_mode_of_waiting (h : s.mode = .waitingForKey) (hstep : step s = .next t) :
    t.mode = if s.nextKeys = 0 then .waitingForKey else .running := by
  obtain ⟨hrun, hwait⟩ := mode_eq_waitingForKey_iff.1 h
  cases (step_of_waiting hrun hwait).symm.trans hstep
  split
  · next hnone =>
    rw [scanKeys_of_no_key hnone]
    exact mode_eq_waitingForKey_iff.2 ⟨hrun, hwait⟩
  · next hsome =>
    obtain ⟨k, hk⟩ := exists_leastKey hsome
    rw [scanKeys_of_leastKey (s := beginCycle s) hk]
    exact mode_eq_running_iff.2 ⟨hrun, rfl⟩

/-- A Running cycle halts by its fetch or by the fault of its instruction. -/
theorem step_halted_iff_of_running (h : s.mode = .running) (hstep : step s = .next t) :
    t.halted = true ↔ s.pc.toNat ≥ 0xFFF ∨ ∃ i, runs s i ∧ faultOf i (beginCycle s) ≠ .none := by
  obtain ⟨hrun, hwait⟩ := mode_eq_running_iff.1 h
  obtain ⟨hpc, rfl⟩ | ⟨i, hi⟩ := running_cases hrun hwait hstep
  · exact ⟨fun _ => .inl hpc, fun _ => rfl⟩
  · obtain ⟨hf, rfl⟩ | ⟨hf, u, -, hu, rfl⟩ := step_runs_cases hi hstep
    · exact ⟨fun _ => .inr ⟨i, hi, hf⟩, fun _ => rfl⟩
    · refine ⟨fun hhalted => by simp [hu] at hhalted, ?_⟩
      rintro (hpc | ⟨j, hj, hfj⟩)
      · exact absurd (pc_lt_of_runs hi) (Nat.not_lt.2 hpc)
      · exact absurd (runs_unique hj hi ▸ hf) hfj

/-- A Running cycle begins the wait by `Fx0A` alone. -/
theorem step_waiting_iff_of_running (h : s.mode = .running) (hstep : step s = .next t) :
    t.waiting = true ↔ ∃ x, runs s (.ldVxK x) := by
  obtain ⟨hrun, hwait⟩ := mode_eq_running_iff.1 h
  constructor
  · intro ht
    obtain ⟨-, rfl⟩ | ⟨i, hi⟩ := running_cases hrun hwait hstep
    · simp [hwait] at ht
    · by_contra hno
      have hne : ∀ x, i ≠ .ldVxK x := fun x e => hno ⟨x, e ▸ hi⟩
      obtain ⟨-, rfl⟩ | ⟨-, u, hu, -, rfl⟩ := step_runs_cases hi hstep
      · simp [hwait] at ht
      · simp [((exec_frame hu).wait hne).1, hwait] at ht
  · rintro ⟨x, hx⟩
    cases (step_of_runs_finish hx rfl hrun).symm.trans hstep
    rfl

/-- No cycle leaves the machine both Halted and waiting: `Fx0A` raises no fault, and a key ends the wait at most. -/
theorem step_modes_apart (h : ¬ (s.halted = true ∧ s.waiting = true)) (hstep : step s = .next t) :
    ¬ (t.halted = true ∧ t.waiting = true) := by
  rintro ⟨hhalted, hwaiting⟩
  cases hm : s.mode with
  | isHalted =>
    cases (step_of_halted (mode_eq_isHalted_iff.1 hm)).symm.trans hstep
    exact h ⟨hhalted, hwaiting⟩
  | waitingForKey =>
    have ht := step_mode_of_waiting hm hstep
    rw [mode_eq_isHalted_iff.2 hhalted] at ht
    split at ht <;> cases ht
  | running =>
    obtain ⟨x, hx⟩ := (step_waiting_iff_of_running hm hstep).1 hwaiting
    obtain hpc | ⟨j, hj, hfj⟩ := (step_halted_iff_of_running hm hstep).1 hhalted
    · exact absurd (pc_lt_of_runs hx) (Nat.not_lt.2 hpc)
    · cases runs_unique hj hx
      exact hfj rfl

/-- Settles O18, by what a cycle does in each of the three states. -/
theorem modesChangeOnlyAsTabulated : Obligations.ModesChangeOnlyAsTabulated := by
  intro s t h hstep
  have hapart := step_modes_apart h hstep
  refine ⟨hapart, fun hm => ?_, fun hm => step_mode_of_waiting hm hstep, fun hm => ?_, fun hm => ?_, rfl, rfl⟩
  · have hhalted := mode_eq_isHalted_iff.1 hm
    cases (step_of_halted hhalted).symm.trans hstep
    exact mode_eq_isHalted_iff.2 hhalted
  · rw [mode_eq_waitingForKey_iff, ← step_waiting_iff_of_running hm hstep]
    exact ⟨And.right, fun hw => ⟨Bool.eq_false_iff.2 fun hh => hapart ⟨hh, hw⟩, hw⟩⟩
  · rw [mode_eq_isHalted_iff, step_halted_iff_of_running hm hstep]

end Sys2Proof.Machine
end

section
/-! PROOFS. Two instructions that do next to nothing: the jump to its own address (R92, R101) and the no-op (R90). -/

namespace Sys2Proof.Machine

open Sys2Proof.Spec

variable {s : State} {nnn : Addr}

/-! ## The idle loop (R92) -/

/-- The machine is Running and its next instruction jumps to where it stands. -/
def Idles (s : State) (nnn : Addr) : Prop := runs s (.jp nnn) ∧ s.pc = absoluteAddr nnn

/-- A cycle of the idle loop takes the inputs and counts the timers down, and that is all. -/
theorem step_of_idles (h : Idles s nnn) : step s = .next (tickTimers (beginCycle s)) := by
  obtain ⟨hruns, hpc⟩ := h
  have hstay : applyEffect (.jump (absoluteAddr nnn)) (beginCycle s) = beginCycle s := by
    rw [← hpc]
    rfl
  rw [step_of_runs_finish (u := beginCycle s) hruns rfl hruns.1, hstay]

/-- The parts of the state the loop stands on are not moved by its cycle. -/
theorem Idles.step (h : Idles s nnn) : Idles (tickTimers (beginCycle s)) nnn := h

theorem safe_of_idles (h : Idles s nnn) : s.safe = true := by
  rw [State.safe, h.1.1]
  rfl

theorem safeFor_of_idles (k : Nat) (h : Idles s nnn) : safeFor k s := by
  induction k generalizing s with
  | zero => exact safe_of_idles h
  | succ k ih => exact ⟨safe_of_idles h, _, step_of_idles h, ih h.step⟩

/-- By induction on the cycles: each takes one count from each timer above 0. -/
theorem run_of_idles (k : Nat) (h : Idles s nnn) :
    ∃ t, Host.Core.run Sys2Proof.core k s = .next t ∧ t.pc = s.pc ∧ t.V = s.V ∧ t.mem = s.mem ∧
      t.DT.toNat = s.DT.toNat - k ∧ t.ST.toNat = s.ST.toNat - k := by
  induction k generalizing s with
  | zero => exact ⟨s, rfl, rfl, rfl, rfl, rfl, rfl⟩
  | succ k ih =>
    obtain ⟨t, ht, hpc, hV, hmem, hDT, hST⟩ := ih h.step
    obtain ⟨hDT1, hST1⟩ := tickTimers_toNat (beginCycle s)
    refine ⟨t, (run_succ (step_of_idles h)).trans ht, hpc, hV, hmem, ?_, ?_⟩
    · rw [hDT, hDT1, beginCycle_DT, Nat.sub_sub, Nat.add_comm]
    · rw [hST, hST1, beginCycle_ST, Nat.sub_sub, Nat.add_comm]

/-- Settles O23, by the cycle of the idle loop, which ends where it began. -/
theorem idleLoopIsSafeForEver : Obligations.IdleLoopIsSafeForEver := by
  intro k s nnn hrun hwait hpc _ hfetch
  have hidles : Idles s nnn := by
    refine ⟨⟨hrun, hwait, _, hfetch, decodeOfEncodeIsTheInstruction (.jp nnn) rfl⟩, ?_⟩
    rw [absoluteAddr_eq_ofNat, ← hpc, BitVec.ofNat_toNat, BitVec.setWidth_eq]
  exact ⟨safeFor_of_idles k hidles, run_of_idles k hidles⟩

/-! ## The no-op (R90) -/

/-- Every `0nnn` but the two rows with leading nibble `0` is unmatched (R67). -/
theorem decode_packNnn_zero (hcls : nnn ≠ 0x0E0) (hret : nnn ≠ 0x0EE) : decode (packNnn 0x0 nnn) = .nop (packNnn 0x0 nnn) := by
  have haddr : ∀ w, packNnn 0x0 nnn = w → nnn = fieldNnn w := fun w e => e ▸ (fieldNnn_packNnn 0x0 nnn).symm
  exact decode_of_isUnmatched ((isUnmatched_iff _).2
    (.inl ⟨fieldMajor_packNnn 0x0 nnn, fun e => hcls (haddr _ e), fun e => hret (haddr _ e)⟩))

/-- Settles O32: the no-op is its PC effect, so its cycle is that and the countdown. -/
theorem nopOnlyAdvances : Obligations.NopOnlyAdvances := by
  refine ⟨fun op s => rfl, fun op s hi => ?_, by decide, by decide, by decide, by decide, by decide, by decide, by decide,
    fun nnn => decode_packNnn_zero⟩
  exact ⟨_, step_of_runs_finish hi rfl hi.1, rfl, tickTimers_toNat (applyEffect .next (beginCycle s))⟩

end Sys2Proof.Machine
end

section
/-! PROOFS. Control transfer (41_flow.md): the call and the return, the jumps, the conditional skips. -/

namespace Sys2Proof.Machine

open Sys2Proof.Spec

variable {s : State} {j : Nat}

/-! ## The call and the return (R100, R102) -/

theorem absoluteAddr_toNat (nnn : Addr) : (absoluteAddr nnn).toNat = nnn.toNat := BitVec.toNat_setWidth_of_le (by decide)

/-- A call with room on the stack. -/
theorem exec_call_of_room (nnn : Addr) (hroom : s.sp.val < 16) : exec (.call nnn) s =
    .next { s with pc := absoluteAddr nnn, stack := s.stack.set s.sp.val (s.pc + 2), sp := ⟨s.sp.val + 1, by omega⟩ } := by
  obtain ⟨_, hpush⟩ | ⟨hfull, -⟩ := push_cases s (s.pc + 2)
  · rw [exec, execCall, hpush]
    rfl
  · omega

/-- A return with `j + 1` entries on the stack. -/
theorem exec_ret_of_entries (hj : j < 16) (hsp : s.sp.val = j + 1) : exec .ret s =
    .next { s with pc := s.stack[j], sp := ⟨j, by omega⟩ } := by
  obtain ⟨_, hpop⟩ | ⟨hempty, -⟩ := pop_cases s
  · rw [exec, execRet, hpop]
    simp only [hsp, Nat.add_sub_cancel]
    rfl
  · omega

/-- Settles O35, by what a call does with room on the stack; a full stack is its fault. -/
theorem callPushesTheNextAddress : Obligations.CallPushesTheNextAddress := by
  intro nnn s
  refine ⟨decodeOfEncodeIsTheInstruction (.call nnn) rfl, fun hroom => ?_, fun hfull => ?_⟩
  · refine ⟨_, exec_call_of_room nnn hroom, rfl, absoluteAddr_toNat nnn, rfl, fun j hj => ?_⟩
    simp only [Vector.getElem_set, eq_comm]
  · have hfault : faultOf (.call nnn) s = .stackOverflow := if_pos hfull
    rw [exec_of_faultOf_ne_none (by simp [hfault]), hfault]
    rfl

/-- Settles O33, by what a return does with entries on the stack; an empty stack is its fault. -/
theorem returnPopsIntoPc : Obligations.ReturnPopsIntoPc := by
  intro s
  refine ⟨rfl, fun j hj hsp => ⟨_, exec_ret_of_entries hj hsp, rfl, rfl⟩, fun hempty => ?_⟩
  have hfault : faultOf .ret s = .stackUnderflow := if_pos hempty
  rw [exec_of_faultOf_ne_none (by simp [hfault]), hfault]
  rfl

/-- Settles O36: the return pops the entry the call pushed, which is the one at the depth before the call. -/
theorem returnAfterCallComesBack : Obligations.ReturnAfterCallComesBack := by
  intro nnn s t u hroom hcall hstack hsp
  cases (exec_call_of_room nnn hroom).symm.trans hcall
  refine ⟨_, exec_ret_of_entries hroom (congrArg Fin.val hsp), ?_, rfl⟩
  simp only [hstack, Vector.getElem_set_self]

/-! ## The jumps (R101, R103) -/

/-- The sum of R103 stays below 2^16, so nothing is lost (D23). -/
theorem offsetTarget_toNat (nnn : Addr) (v : Byte) : (offsetTarget nnn v).toNat = nnn.toNat + v.toNat := by
  rw [offsetTarget_eq_ofNat, BitVec.toNat_ofNat, Nat.mod_eq_of_lt (by omega)]

/-- Settles O34: the jump is its PC effect, to the zero-extended operand. -/
theorem jumpSetsPc : Obligations.JumpSetsPc := fun nnn _ =>
  ⟨decodeOfEncodeIsTheInstruction (.jp nnn) rfl, _, rfl, rfl, absoluteAddr_toNat nnn⟩

/-- Settles O37: the jump is its PC effect, to the sum of two operands too small to wrap. -/
theorem jumpWithOffsetAddsV0 : Obligations.JumpWithOffsetAddsV0 := fun nnn s =>
  ⟨decodeOfEncodeIsTheInstruction (.jpV0 nnn) rfl, _, rfl, rfl, offsetTarget_toNat nnn (s.getV 0)⟩

/-! ## The conditional skips (R104 to R107) -/

theorem finish_skipIf_eq (s : State) (a b : Byte) :
    finish (.skipIf (a == b)) s = .next { s with pc := if a = b then s.pc + 4 else s.pc + 2 } := by
  rw [finish_eq, applyEffect, target_skipIf_eq]

theorem finish_skipIf_ne (s : State) (a b : Byte) :
    finish (.skipIf (a != b)) s = .next { s with pc := if a ≠ b then s.pc + 4 else s.pc + 2 } := by
  rw [finish_eq, applyEffect, target_skipIf_ne, ite_not]

/-- Settles O38: each of the two ends with the skip its comparison asks for. -/
theorem immediateSkipsCompare : Obligations.ImmediateSkipsCompare := fun x kk s =>
  ⟨decodeOfEncodeIsTheInstruction (.seImm x kk) rfl, decodeOfEncodeIsTheInstruction (.sneImm x kk) rfl,
    finish_skipIf_eq s (s.getV x) kk, finish_skipIf_ne s (s.getV x) kk⟩

/-- Settles O39: each of the two ends with the skip its comparison asks for; another minor code is in the classes (b) and (d) of R66. -/
theorem registerSkipsCompare : Obligations.RegisterSkipsCompare := by
  intro x y s
  refine ⟨decodeOfEncodeIsTheInstruction (.seReg x y) rfl, decodeOfEncodeIsTheInstruction (.sneReg x y) rfl,
    finish_skipIf_eq s (s.getV x) (s.getV y), finish_skipIf_ne s (s.getV x) (s.getV y), fun n hn => ⟨?_, ?_⟩⟩
  · exact decode_of_isUnmatched ((isUnmatched_iff _).2 (.inr (.inl ⟨fieldMajor_packXyn .., by rwa [fieldN_packXyn]⟩)))
  · exact decode_of_isUnmatched ((isUnmatched_iff _).2 (.inr (.inr (.inr (.inl ⟨fieldMajor_packXyn .., by rwa [fieldN_packXyn]⟩)))))

end Sys2Proof.Machine
end

section
/-! PROOFS. The ALU (42_alu.md): an instruction that writes one result, one that writes a result and then its flag, the values and flags themselves, and the random
byte. -/

namespace Sys2Proof.Machine

open Sys2Proof.Spec

variable {i : Instr} {s : State} {x : Reg} {v f : Byte}

/-! ## The two ways an ALU instruction ends (R120) -/

/-- An instruction that ends by writing `v` to `V[x]` changes that register and `pc`. -/
theorem exec_of_result (he : exec i s = finish .next (s.setV x v)) :
    ∃ t, exec i s = .next t ∧ t = { s with V := t.V, pc := s.pc + 2 } ∧ t.getV x = v ∧ ∀ r, r ≠ x → t.getV r = s.getV r :=
  ⟨_, he, rfl, getV_setV_self s x v, fun r hr => (getV_setV s x r v).trans (if_neg hr)⟩

/-- The same, with the result given bit by bit. -/
theorem exec_of_result_bits {bit : Nat → Bool} (he : exec i s = finish .next (s.setV x v)) (hv : ∀ b, v.getLsbD b = bit b) :
    ∃ t, exec i s = .next t ∧ t = { s with V := t.V, pc := s.pc + 2 } ∧
      (∀ b < 8, (t.getV x).getLsbD b = bit b) ∧ ∀ r, r ≠ x → t.getV r = s.getV r := by
  obtain ⟨t, ht, hframe, hx, hr⟩ := exec_of_result he
  exact ⟨t, ht, hframe, fun b _ => hx ▸ hv b, hr⟩

/-- An instruction that ends by writing `v` to `V[x]` and then `f` to VF changes those registers and `pc`; where `x` is VF the flag stands (R12). -/
theorem exec_of_resultThenFlag (he : exec i s = finish .next (s.setResultThenFlag x v f)) :
    ∃ t, exec i s = .next t ∧ t = { s with V := t.V, pc := s.pc + 2 } ∧ (x ≠ VF → t.getV x = v) ∧ t.getV VF = f ∧
      ∀ r, r ≠ x → r ≠ VF → t.getV r = s.getV r := by
  have hread := fun r => getV_setResultThenFlag s x r v f
  refine ⟨_, he, rfl, fun hx => ?_, (hread VF).trans (if_pos rfl), fun r hr hf => ?_⟩
  · exact (hread x).trans ((if_neg hx).trans (if_pos rfl))
  · exact (hread r).trans ((if_neg hf).trans (if_neg hr))

/-! ## The values and the flags as numbers -/

theorem toNat_flagOf (b : Bool) : (flagOf b).toNat = if b then 1 else 0 := by cases b <;> rfl

theorem toNat_carryFlag (a b : Byte) : (carryFlag a b).toNat = if a.toNat + b.toNat > 255 then 1 else 0 := by
  simp [carryFlag, toNat_flagOf]

theorem toNat_greaterFlag (a b : Byte) : (greaterFlag a b).toNat = if a.toNat > b.toNat then 1 else 0 := by
  simp [greaterFlag, toNat_flagOf]

theorem toNat_lowBitFlag (a : Byte) : (lowBitFlag a).toNat = a.toNat % 2 := by
  have hbit : a.getLsbD 0 = decide (a.toNat % 2 = 1) := Nat.testBit_zero a.toNat
  simp only [lowBitFlag, toNat_flagOf, hbit, decide_eq_true_eq]
  split <;> omega

/-- Bit 7 is the top bit of a byte, the one that tells whether it is at least 128. -/
theorem toNat_highBitFlag (a : Byte) : (highBitFlag a).toNat = a.toNat / 128 := by
  have hbit : a.getLsbD 7 = decide (128 ≤ a.toNat) := BitVec.msb_eq_decide a
  simp only [highBitFlag, toNat_flagOf, hbit, decide_eq_true_eq]
  split <;> omega

/-- Subtraction of bytes is subtraction of integers modulo 256. -/
theorem toNat_sub_eq_emod (a b : Byte) : ((a - b).toNat : Int) = (a.toNat - b.toNat : Int) % 256 := by
  rw [BitVec.toNat_sub]
  omega

/-! ## Loads, logic, addition, subtraction (R121 to R128, R130) -/

/-- Settles O40: both write one result, the immediate or the sum. -/
theorem immediateLoadAndAdd : Obligations.ImmediateLoadAndAdd := by
  intro x kk s
  obtain ⟨t, ht, hframe, hx, hr⟩ := exec_of_result (i := .addImm x kk) (s := s) rfl
  exact ⟨decodeOfEncodeIsTheInstruction (.ldImm x kk) rfl, decodeOfEncodeIsTheInstruction (.addImm x kk) rfl,
    exec_of_result rfl, t, ht, hframe, by rw [hx, BitVec.toNat_add], hr⟩

/-- Settles O41: each of the four writes one result, whose bits are those of the operands, combined. -/
theorem copyAndLogic : Obligations.CopyAndLogic := fun x y _ =>
  ⟨decodeOfEncodeIsTheInstruction (.ldReg x y) rfl, decodeOfEncodeIsTheInstruction (.orReg x y) rfl,
    decodeOfEncodeIsTheInstruction (.andReg x y) rfl, decodeOfEncodeIsTheInstruction (.xorReg x y) rfl,
    exec_of_result rfl, exec_of_result_bits rfl fun _ => BitVec.getLsbD_or, exec_of_result_bits rfl fun _ => BitVec.getLsbD_and,
    exec_of_result_bits rfl fun _ => BitVec.getLsbD_xor⟩

/-- Settles O42: the sum is written, and then the carry of the old operands. -/
theorem addSetsCarry : Obligations.AddSetsCarry := by
  intro x y s
  obtain ⟨t, ht, hframe, hx, hf, hr⟩ := exec_of_resultThenFlag (i := .addReg x y) (s := s) rfl
  refine ⟨decodeOfEncodeIsTheInstruction (.addReg x y) rfl, t, ht, hframe, fun hne => ?_, ?_, hr⟩
  · rw [hx hne, BitVec.toNat_add]
  · rw [hf, toNat_carryFlag]

/-- An instruction that writes a difference and then its flag (R128, R130). -/
theorem exec_of_difference {a b : Byte} (he : exec i s = finish .next (s.setResultThenFlag x (a - b) (greaterFlag a b))) :
    ∃ t, exec i s = .next t ∧ t = { s with V := t.V, pc := s.pc + 2 } ∧
      (x ≠ VF → ((t.getV x).toNat : Int) = (a.toNat - b.toNat : Int) % 256) ∧
      (t.getV VF).toNat = (if a.toNat > b.toNat then 1 else 0) ∧ ∀ r, r ≠ x → r ≠ VF → t.getV r = s.getV r := by
  obtain ⟨t, ht, hframe, hx, hf, hr⟩ := exec_of_resultThenFlag he
  refine ⟨t, ht, hframe, fun hne => ?_, ?_, hr⟩
  · rw [hx hne, toNat_sub_eq_emod]
  · rw [hf, toNat_greaterFlag]

/-- Settles O43, by the difference with the minuend `V[x]`. -/
theorem subSetsStrictlyGreater : Obligations.SubSetsStrictlyGreater := fun x y _ =>
  ⟨decodeOfEncodeIsTheInstruction (.subReg x y) rfl, exec_of_difference rfl⟩

/-- Settles O44, by the difference with the minuend `V[y]`. -/
theorem subnSetsStrictlyGreater : Obligations.SubnSetsStrictlyGreater := fun x y _ =>
  ⟨decodeOfEncodeIsTheInstruction (.subnReg x y) rfl, exec_of_difference rfl⟩

/-! ## The shifts (R129, R132) -/

/-- Settles O45: the shifted value is written, and then the bit that left it. -/
theorem shiftsSetTheBitShiftedOut : Obligations.ShiftsSetTheBitShiftedOut := by
  intro x y s
  refine ⟨decodeOfEncodeIsTheInstruction (.shr x y) rfl, decodeOfEncodeIsTheInstruction (.shl x y) rfl, ?_, ?_⟩
  · obtain ⟨t, ht, hframe, hx, hf, hr⟩ := exec_of_resultThenFlag (i := .shr x y) (s := s) rfl
    exact ⟨t, ht, hframe, fun hne => by rw [hx hne, BitVec.toNat_ushiftRight, Nat.shiftRight_one], by rw [hf, toNat_lowBitFlag], hr⟩
  · obtain ⟨t, ht, hframe, hx, hf, hr⟩ := exec_of_resultThenFlag (i := .shl x y) (s := s) rfl
    exact ⟨t, ht, hframe, fun hne => by rw [hx hne, BitVec.toNat_shiftLeft, Nat.shiftLeft_eq], by rw [hf, toNat_highBitFlag], hr⟩

/-! ## The random byte (R131) -/

/-- A cycle that executes `Cxkk` uses the random byte it took at its start. -/
theorem step_of_runs_rnd {kk : Byte} (hi : runs s (.rnd x kk)) : ∃ t, step s = .next t ∧ t.getV x = s.nextRnd &&& kk :=
  ⟨_, step_of_runs_finish hi rfl hi.1, getV_setV_self (beginCycle s) x (s.nextRnd &&& kk)⟩

/-- Settles O46: whether the cycle would execute `Cxkk` does not depend on the inputs, and its random byte is the first input's, or the free value. -/
theorem randomIsTheFreeByteMasked : Obligations.RandomIsTheFreeByteMasked := by
  intro x kk s
  refine ⟨decodeOfEncodeIsTheInstruction (.rnd x kk) rfl, exec_of_result_bits rfl fun _ => BitVec.getLsbD_and, ?_, fun hi hnone => ?_⟩
  · intro hi keys b rest
    exact step_of_runs_rnd (s := { s with pending := ⟨keys, b⟩ :: rest }) hi
  · have hfree : s.nextRnd = Config.freeRnd s.cycles := by rw [State.nextRnd, hnone]
    exact hfree ▸ step_of_runs_rnd hi

end Sys2Proof.Machine
end

section
/-! PROOFS. The index register, and the bytes moved between registers and memory (43_index_memory.md): the values of `I`, the decimal digits, the dump, the load, and the
round trip. -/

namespace Sys2Proof.Machine

open Sys2Proof.Spec

variable {i : Instr} {s : State} {x : Reg}

/-! ## The index register (R140 to R142) -/

/-- The sum of R141 is kept modulo 2^16 (D3, D11). -/
theorem indexSum_toNat (a : Word) (v : Byte) : (indexSum a v).toNat = (a.toNat + v.toNat) % 65536 := by
  rw [indexSum, BitVec.toNat_add, BitVec.toNat_setWidth_of_le (by decide)]

/-- Five times a byte stays below 2^16, so the address of R142 is exact (D23). -/
theorem glyphAddr_toNat (v : Byte) : (glyphAddr v).toNat = v.toNat * 5 := by
  have hfive : (BitVec.ofNat 16 Config.glyphBytes).toNat = 5 := rfl
  rw [glyphAddr, BitVec.toNat_mul, BitVec.toNat_setWidth_of_le (by decide), hfive]
  omega

/-- Settles O47: each of the three ends by writing its value to `I`. -/
theorem indexInstructionsSetI : Obligations.IndexInstructionsSetI := fun nnn x s =>
  ⟨decodeOfEncodeIsTheInstruction (.ldI nnn) rfl, decodeOfEncodeIsTheInstruction (.addI x) rfl, decodeOfEncodeIsTheInstruction (.ldF x) rfl,
    ⟨_, rfl, rfl, absoluteAddr_toNat nnn⟩, ⟨_, rfl, rfl, indexSum_toNat s.I (s.getV x)⟩, ⟨_, rfl, rfl, glyphAddr_toNat (s.getV x)⟩⟩

/-! ## Past the end of memory (R43, R174, R180) -/

/-- An instruction whose highest address is outside memory records the fault and does nothing else. -/
theorem exec_of_memoryOutOfBounds (hf : faultOf i s = .memoryOutOfBounds) : exec i s =
    .next { s with halted := true, faultCause := .memoryOutOfBounds, faultPc := s.pc, faultOpcode := encode i } := by
  rw [exec_of_faultOf_ne_none (by simp [hf]), hf]
  rfl

/-! ## The decimal digits (R143) -/

/-- The memory after `Fx33` in `s` with no fault (R143). -/
def State.bcdMemory (s : State) (x : Reg) : Memory := Memory.writeBytes s.mem s.I.toNat (decimalDigits (s.getV x))

/-- `Fx33` within memory stores the digits and moves `pc` on (R143). -/
theorem exec_ldB (hin : s.I.toNat + 2 ≤ 4095) : exec (.ldB x) s = .next (applyEffect .next { s with mem := s.bcdMemory x }) := by
  obtain ⟨-, hstore⟩ | ⟨hout, -⟩ := storeBytes_cases s s.I.toNat (decimalDigits (s.getV x))
  · simp only [exec, execLdB, hstore, finish_eq, State.bcdMemory]
  · have hpast := ((inMemory_eq_false_iff _ _).1 hout).2
    rw [length_decimalDigits] at hpast
    omega

/-- The run of digits stays inside memory. -/
theorem bcd_fits (hin : s.I.toNat + 2 ≤ 4095) (v : Byte) : s.I.toNat + (decimalDigits v).length ≤ Config.memSize := by
  simp only [length_decimalDigits, Config.memSize]
  omega

/-- The byte `j` places above `I` is the digit `j`, hundreds first, and a digit fits in a byte. -/
theorem read_bcdMemory (h : Memory.wf s.mem = true) (hin : s.I.toNat + 2 ≤ 4095) {j d : Nat} (hj : j < 3)
    (hdigit : (decimalDigits (s.getV x))[j] = BitVec.ofNat 8 d) (hd : d < 256) :
    (Memory.read (s.bcdMemory x) (s.I.toNat + j)).toNat = d := by
  rw [State.bcdMemory, Memory.read_writeBytes_inside h (bcd_fits hin _) hj, hdigit, BitVec.toNat_ofNat,
    Nat.mod_eq_of_lt hd]

/-- Outside `I` to `I + 2` every byte stays. -/
theorem read_bcdMemory_outside (h : Memory.wf s.mem = true) (hin : s.I.toNat + 2 ≤ 4095) {a : Nat}
    (ha : ¬ (s.I.toNat ≤ a ∧ a ≤ s.I.toNat + 2)) : Memory.read (s.bcdMemory x) a = Memory.read s.mem a := by
  refine (Memory.read_writeBytes h (bcd_fits hin _) a).trans (if_neg ?_)
  rw [length_decimalDigits]
  omega

/-- Settles O48: the digits are a run of three bytes written from `I` on. -/
theorem bcdStoresThreeDigits : Obligations.BcdStoresThreeDigits := by
  intro x s hwf
  refine ⟨decodeOfEncodeIsTheInstruction (.ldB x) rfl, fun hin => ?_, fun hout => exec_of_memoryOutOfBounds (if_pos hout)⟩
  have hv : (s.getV x).toNat < 256 := (s.getV x).isLt
  exact ⟨_, exec_ldB hin, rfl, read_bcdMemory (j := 0) hwf hin (by decide) rfl (by omega),
    read_bcdMemory hwf hin (by decide) rfl (by omega), read_bcdMemory hwf hin (by decide) rfl (by omega),
    fun _ ha => read_bcdMemory_outside hwf hin ha⟩

/-! ## The dump (R144) -/

/-- Outside `I` to `I + x` the dump leaves every byte. -/
theorem read_dumpedMemory_outside (h : Memory.wf s.mem = true) (hin : s.I.toNat + x.toNat ≤ 4095) {a : Nat}
    (ha : ¬ (s.I.toNat ≤ a ∧ a ≤ s.I.toNat + x.toNat)) : Memory.read (s.dumpedMemory x) a = Memory.read s.mem a := by
  refine (Memory.read_writeBytes h ?_ a).trans (if_neg ?_)
  · simp only [length_regsUpTo, Config.memSize]
    omega
  · rw [length_regsUpTo]
    omega

/-- `V[r]` is stored `r` places above `I`. -/
theorem read_dumpedMemory_reg (h : Memory.wf s.mem = true) (hin : s.I.toNat + x.toNat ≤ 4095) {r : Reg} (hr : r.toNat ≤ x.toNat) :
    Memory.read (s.dumpedMemory x) (s.I.toNat + r.toNat) = s.getV r := by
  rw [read_dumpedMemory h hin hr, BitVec.ofNat_toNat, BitVec.setWidth_eq]

/-- Settles O49, by the bytes of the memory after the dump. -/
theorem dumpStoresV0ToVx : Obligations.DumpStoresV0ToVx := fun x _ hwf =>
  ⟨decodeOfEncodeIsTheInstruction (.ldMemVx x) rfl,
    fun hin => ⟨_, exec_ldMemVx hin, rfl, fun _ hr => read_dumpedMemory_reg hwf hin hr, fun _ ha => read_dumpedMemory_outside hwf hin ha⟩,
    fun hout => exec_of_memoryOutOfBounds (if_pos hout)⟩

/-! ## The load (R145) -/

/-- `s` with `V[0]` to `V[x]` loaded from `I` on, before `pc` moves (R145). -/
def State.loadedRegs (s : State) (x : Reg) : State := s.setVFrom 0 (Memory.readBytes s.mem s.I.toNat (x.toNat + 1))

/-- `Fx65` within memory loads the registers and moves `pc` on (R145). -/
theorem exec_ldVxMem (hin : s.I.toNat + x.toNat ≤ 4095) : exec (.ldVxMem x) s = .next (applyEffect .next (s.loadedRegs x)) := by
  obtain ⟨-, hload⟩ | ⟨hout, -⟩ := loadBytes_cases s s.I.toNat (x.toNat + 1)
  · simp only [exec, execLdVxMem, hload, finish_eq, State.loadedRegs]
  · have hpast := ((inMemory_eq_false_iff _ _).1 hout).2
    omega

/-- The load changes `V` alone. -/
theorem loadedRegs_eq (s : State) (x : Reg) : s.loadedRegs x = { s with V := (s.loadedRegs x).V } := setVFrom_eq s 0 _

/-- The byte `j` places into a run of bytes read from `a` on (R44). -/
theorem Memory.getD_readBytes (m : Memory) (a : Nat) {j n : Nat} (hj : j < n) :
    (Memory.readBytes m a n).getD j 0 = Memory.read m (a + j) := by
  simp [Memory.readBytes, hj]

/-- `V[r]` takes the byte `r` places above `I` up to `V[x]`, and stays above it. -/
theorem getV_loadedRegs (s : State) (x r : Reg) :
    (s.loadedRegs x).getV r = if r.toNat ≤ x.toNat then Memory.read s.mem (s.I.toNat + r.toNat) else s.getV r := by
  have hlen := Memory.length_readBytes s.mem s.I.toNat (x.toNat + 1)
  rw [State.loadedRegs, getV_setVFrom s 0 _ (by omega), hlen]
  by_cases hr : r.toNat ≤ x.toNat
  · rw [if_pos (by omega), if_pos hr, Nat.sub_zero, Memory.getD_readBytes _ _ (by omega)]
  · rw [if_neg (by omega), if_neg hr]

/-- Settles O50, by the registers after the load. -/
theorem loadFillsV0ToVx : Obligations.LoadFillsV0ToVx := fun x s =>
  ⟨decodeOfEncodeIsTheInstruction (.ldVxMem x) rfl,
    fun hin => ⟨_, exec_ldVxMem hin, congrArg (applyEffect .next) (loadedRegs_eq s x), getV_loadedRegs s x⟩,
    fun hout => exec_of_memoryOutOfBounds (if_pos hout)⟩

/-- Settles O51: the load reads each register's byte where the dump has stored it. -/
theorem loadAfterDumpRestoresRegisters : Obligations.LoadAfterDumpRestoresRegisters := by
  intro x s t u hwf hin hdump hmem hI
  cases (exec_ldMemVx hin).symm.trans hdump
  refine ⟨_, exec_ldVxMem (hI ▸ hin), fun r hr => ?_⟩
  calc (u.loadedRegs x).getV r
    _ = Memory.read u.mem (u.I.toNat + r.toNat) := (getV_loadedRegs u x r).trans (if_pos hr)
    _ = Memory.read (s.dumpedMemory x) (s.I.toNat + r.toNat) := by rw [hmem, hI, applyEffect_mem]
    _ = s.getV r := read_dumpedMemory_reg hwf hin hr

end Sys2Proof.Machine
end

section
/-! PROOFS. The display (44_display.md): the screen cleared, the sprite drawn, the same sprite drawn again, and which cycles change pixels. -/

namespace Sys2Proof.Machine

open Sys2Proof.Spec

variable {s : State} {x y : Reg} {n : Nibble} {r b py px : Nat}

/-! ## `CLS` (R150, R152) -/

/-- Settles O52, by the pixels of a cleared frame buffer. -/
theorem clsClearsTheScreen : Obligations.ClsClearsTheScreen := fun _ =>
  ⟨rfl, _, rfl, rfl, fun py px _ _ => pixel_clear py px⟩

/-! ## Which cycles change pixels (R154) -/

/-- Settles O28, by the frame of the instruction for the pixels and by `dirty` for the output. -/
theorem onlyDisplayInstructionsChangePixels : Obligations.OnlyDisplayInstructionsChangePixels := by
  intro s t h
  refine ⟨fun hfb => ?_, step_dirty_iff h⟩
  obtain ht | ⟨i, u, hruns, hu, ht⟩ := step_idle_or_runs h
  · exact absurd (by rw [ht, beginCycle_fb]) hfb
  · refine ⟨i, hruns, ?_⟩
    by_contra hdraws
    exact hfb (by rw [ht, ((exec_frame hu).pixels (by simpa using hdraws)).1, beginCycle_fb])

/-! ## The sprite on the screen (R151) -/

/-- The bit that a draw XORs into the pixel in line `py`, column `px`: the sprite bit that falls there, and 0 where none does (R151). -/
def State.spriteMask (s : State) (x y : Reg) (n : Nibble) (py px : Nat) : Bool :=
  let r := ringOffset 32 (originOf s y) py
  let b := ringOffset 64 (originOf s x) px
  decide (r < n.toNat ∧ b < 8) && spriteBit s r b

/-- No two sprite bits fall on one pixel: the mask there is the bit itself (R151). -/
theorem spriteMask_of_bit (hr : r < n.toNat) (hb : b < 8) :
    s.spriteMask x y n ((originOf s y + r) % 32) ((originOf s x + b) % 64) = spriteBit s r b := by
  have hline : ringOffset 32 (originOf s y) ((originOf s y + r) % 32) = r :=
    (ringOffset_line (Nat.mod_lt _ (by decide)) (by omega)).1 rfl
  have hcol : ringOffset 64 (originOf s x) ((originOf s x + b) % 64) = b :=
    (ringOffset_col (Nat.mod_lt _ (by decide)) (by omega)).1 rfl
  simp [State.spriteMask, hline, hcol, hr, hb]

/-- The mask is 1 only where a sprite bit 1 falls. -/
theorem exists_bit_of_spriteMask (hy : py < 32) (hx : px < 64) (h : s.spriteMask x y n py px = true) :
    ∃ r b, r < n.toNat ∧ b < 8 ∧ py = (originOf s y + r) % 32 ∧ px = (originOf s x + b) % 64 ∧ spriteBit s r b = true := by
  simp only [State.spriteMask, Bool.and_eq_true, decide_eq_true_eq] at h
  obtain ⟨⟨hr, hb⟩, hbit⟩ := h
  exact ⟨_, _, hr, hb, (ringOffset_line hy (by omega)).2 rfl, (ringOffset_col hx (by omega)).2 rfl, hbit⟩

/-! ## `DRW` (R153) -/

/-- The origin coordinate read after VF has been cleared (D14). -/
theorem getV_clearedFlag_toNat (s : State) (x : Reg) : ((s.setV VF 0).getV x).toNat = originOf s x := by
  rw [getV_setV, originOf]
  split <;> rfl

/-- The sprite of `Dxyn` drawn on the screen of `s` (R153). -/
def State.spriteDrawing (s : State) (x y : Reg) (n : Nibble) : Drawing :=
  fbDraw s.fb ((s.setV VF 0).getV x) ((s.setV VF 0).getV y) (Memory.readBytes s.mem s.I.toNat n.toNat)

theorem pixel_spriteDrawing (s : State) (x y : Reg) (n : Nibble) (hy : py < 32) (hx : px < 64) :
    (s.spriteDrawing x y n).fb.pixel py px = (s.fb.pixel py px ^^ s.spriteMask x y n py px) := by
  have hlen := Memory.length_readBytes s.mem s.I.toNat n.toNat
  rw [State.spriteDrawing, pixel_fbDraw _ _ _ _ (by omega) hy hx, hlen]
  simp only [getV_clearedFlag_toNat, State.spriteMask]
  by_cases hin : ringOffset 32 (originOf s y) py < n.toNat
  · rw [Memory.getD_readBytes _ _ hin, spriteBit]
  · simp [hin]

/-- The sprite collides where one of its bits 1 meets a pixel 1, bit by bit (R151). -/
theorem collision_spriteDrawing (s : State) (x y : Reg) (n : Nibble) :
    (s.spriteDrawing x y n).collision = true ↔ ∃ r b, r < n.toNat ∧ b < 8 ∧ spriteBit s r b = true ∧
      s.fb.pixel ((originOf s y + r) % 32) ((originOf s x + b) % 64) = true := by
  have hlen := Memory.length_readBytes s.mem s.I.toNat n.toNat
  rw [State.spriteDrawing, collision_fbDraw _ _ _ _ (by omega), hlen]
  simp only [getV_clearedFlag_toNat]
  refine exists_congr fun r => exists_congr fun b => and_congr_right fun hr => ?_
  rw [Memory.getD_readBytes _ _ hr, spriteBit]

/-- The same, pixel by pixel. -/
theorem collision_spriteDrawing_iff_pixel (s : State) (x y : Reg) (n : Nibble) :
    (s.spriteDrawing x y n).collision = true ↔
      ∃ py px, py < 32 ∧ px < 64 ∧ s.spriteMask x y n py px = true ∧ s.fb.pixel py px = true := by
  rw [collision_spriteDrawing]
  constructor
  · rintro ⟨r, b, hr, hb, hbit, hpixel⟩
    exact ⟨_, _, Nat.mod_lt _ (by decide), Nat.mod_lt _ (by decide), (spriteMask_of_bit hr hb).trans hbit, hpixel⟩
  · rintro ⟨py, px, hy, hx, hmask, hpixel⟩
    obtain ⟨r, b, hr, hb, rfl, rfl, hbit⟩ := exists_bit_of_spriteMask hy hx hmask
    exact ⟨r, b, hr, hb, hbit, hpixel⟩

/-- `s` after a `Dxyn` that raises no fault (R153). -/
def State.drawn (s : State) (x y : Reg) (n : Nibble) : State :=
  { s with
    V := (s.setV VF (flagOf (s.spriteDrawing x y n).collision)).V
    fb := (s.spriteDrawing x y n).fb, dirty := true, pc := s.pc + 2 }

/-- `Dxyn` within memory: the flag written last replaces the one cleared first (R153). -/
theorem exec_drw (hin : n.toNat = 0 ∨ s.I.toNat + n.toNat - 1 ≤ 4095) : exec (.drw x y n) s = .next (s.drawn x y n) := by
  obtain ⟨-, hload⟩ | ⟨hout, -⟩ := loadBytes_cases s s.I.toNat n.toNat
  · rw [exec, execDrw, hload]
    simp only [finish_eq, State.setV, State.withDrawing, Vector.set_set]
    rfl
  · exact absurd ((inMemory_iff _ _).2 hin) (Bool.eq_false_iff.1 hout)

theorem pixel_drawn (s : State) (x y : Reg) (n : Nibble) (hy : py < 32) (hx : px < 64) :
    (s.drawn x y n).fb.pixel py px = (s.fb.pixel py px ^^ s.spriteMask x y n py px) := pixel_spriteDrawing s x y n hy hx

theorem getV_drawn (s : State) (x y : Reg) (n : Nibble) (r : Reg) :
    (s.drawn x y n).getV r = if r = VF then flagOf (s.spriteDrawing x y n).collision else s.getV r :=
  getV_setV s VF r _

theorem flagOf_eq_one_iff (c : Bool) : flagOf c = 1 ↔ c = true := by cases c <;> decide

theorem getV_drawn_flag_eq_one_iff (s : State) (x y : Reg) (n : Nibble) :
    (s.drawn x y n).getV VF = 1 ↔ (s.spriteDrawing x y n).collision = true := by
  rw [getV_drawn, if_pos rfl, flagOf_eq_one_iff]

/-- Settles O53: the mask is the sprite bit where one falls and 0 elsewhere, and VF holds the collision. -/
theorem drawXorsTheSprite : Obligations.DrawXorsTheSprite := by
  intro x y n s
  refine ⟨decodeOfEncodeIsTheInstruction (.drw x y n) rfl,
    fun hin => ⟨_, exec_drw hin, rfl, fun r b hr hb => ?_, fun py px hy hx haway => ?_, ?_, ?_, fun r hr => ?_⟩,
    fun hn hout => exec_of_memoryOutOfBounds (if_pos ⟨hn, hout⟩)⟩
  · rw [← spriteMask_of_bit hr hb]
    exact pixel_drawn s x y n (Nat.mod_lt _ (by decide)) (Nat.mod_lt _ (by decide))
  · have hmask : s.spriteMask x y n py px = false := Bool.eq_false_iff.2 fun h => by
      obtain ⟨r, b, hr, hb, hline, hcol, -⟩ := exists_bit_of_spriteMask hy hx h
      exact haway r b hr hb ⟨hline, hcol⟩
    rw [pixel_drawn s x y n hy hx, hmask, Bool.xor_false]
  · rw [getV_drawn, if_pos rfl]
    cases (s.spriteDrawing x y n).collision
    · exact .inl rfl
    · exact .inr rfl
  · rw [getV_drawn_flag_eq_one_iff, collision_spriteDrawing]
  · rw [getV_drawn, if_neg hr]

/-! ## The same draw again (R153 (e)) -/

/-- A draw moves no origin: it writes VF alone, which an origin reads as 0. -/
theorem originOf_drawn (s : State) (x y : Reg) (n : Nibble) (r : Reg) : originOf (s.drawn x y n) r = originOf s r := by
  unfold originOf
  split
  · rfl
  · next hr => rw [getV_drawn, if_neg hr]

/-- A draw leaves its origin, `I` and memory, so drawn again the sprite has the same mask. -/
theorem spriteMask_drawn (s : State) (x y : Reg) (n : Nibble) : (s.drawn x y n).spriteMask x y n = s.spriteMask x y n := by
  have hbit : spriteBit (s.drawn x y n) = spriteBit s := rfl
  funext py px
  simp only [State.spriteMask, originOf_drawn, hbit]

/-- Settles O54: the second draw XORs the mask in again, and collides where the mask is 1 and the first draw left a 1. -/
theorem drawingTwiceRestoresTheScreen : Obligations.DrawingTwiceRestoresTheScreen := by
  intro x y n s hin
  refine ⟨_, _, exec_drw hin, exec_drw (s := s.drawn x y n) hin, FrameBuffer.ext_pixel fun py px hy hx => ?_, ?_⟩
  · calc ((s.drawn x y n).drawn x y n).fb.pixel py px
      _ = ((s.drawn x y n).fb.pixel py px ^^ s.spriteMask x y n py px) := by rw [pixel_drawn _ x y n hy hx, spriteMask_drawn]
      _ = s.fb.pixel py px := by rw [pixel_drawn s x y n hy hx, Bool.xor_assoc, Bool.xor_self, Bool.xor_false]
  · rw [getV_drawn_flag_eq_one_iff, collision_spriteDrawing_iff_pixel, spriteMask_drawn]
    refine exists_congr fun py => exists_congr fun px => and_congr_right fun hy => and_congr_right fun hx => ?_
    rw [pixel_drawn s x y n hy hx]
    cases s.fb.pixel py px <;> cases s.spriteMask x y n py px <;> decide

end Sys2Proof.Machine
end

section
/-! PROOFS. The keypad and the timers (45_input_timers.md): the skips on a key, the wait for a key with the cycle after it, and the moves between a register and a
timer. -/

namespace Sys2Proof.Machine

open Sys2Proof.Spec

variable {i : Instr} {s t : State} {x : Reg} {k : BitVec 4}

/-! ## The skips on a key (R160, R161) -/

/-- `Ex9E` with an index that names a key. -/
theorem exec_skp (hkey : (s.getV x).toNat ≤ 15) : exec (.skp x) s =
    .next { s with pc := if s.keypad.getLsbD (s.getV x).toNat then s.pc + 4 else s.pc + 2 } := by
  obtain ⟨-, he⟩ | ⟨hout, -⟩ := keyPressed_cases s (s.getV x)
  · rw [exec, execSkp, he]
    simp only [finish_eq, applyEffect, target_skipIf]
  · omega

/-- `ExA1` with an index that names a key. -/
theorem exec_sknp (hkey : (s.getV x).toNat ≤ 15) : exec (.sknp x) s =
    .next { s with pc := if s.keypad.getLsbD (s.getV x).toNat then s.pc + 2 else s.pc + 4 } := by
  obtain ⟨-, he⟩ | ⟨hout, -⟩ := keyPressed_cases s (s.getV x)
  · rw [exec, execSknp, he]
    simp only [finish_eq, applyEffect, target_skipIf_not]
  · omega

/-- An instruction whose index names no key records the fault and does nothing else (R175, R180). -/
theorem exec_of_keyIndexOutOfRange (hf : faultOf i s = .keyIndexOutOfRange) : exec i s =
    .next { s with halted := true, faultCause := .keyIndexOutOfRange, faultPc := s.pc, faultOpcode := encode i } := by
  rw [exec_of_faultOf_ne_none (by simp [hf]), hf]
  rfl

/-- Settles O55, by the two answers of a look at a key: pressed or not, and no such key. -/
theorem keySkipsTestTheSnapshot : Obligations.KeySkipsTestTheSnapshot := fun x _ =>
  ⟨decodeOfEncodeIsTheInstruction (.skp x) rfl, decodeOfEncodeIsTheInstruction (.sknp x) rfl,
    fun hkey => ⟨exec_skp hkey, exec_sknp hkey⟩,
    fun hout => ⟨exec_of_keyIndexOutOfRange (if_pos hout), exec_of_keyIndexOutOfRange (if_pos hout)⟩⟩

/-! ## The wait for a key (R162, R84) -/

/-- The cycle of `Fx0A` enters the wait for register `x` and counts the timers down; the keys it latches decide nothing. -/
theorem wait_entered (hi : runs s (.ldVxK x)) (ht : step s = .next t) :
    t.V = s.V ∧ t.pc = s.pc + 2 ∧ t.waitReg = x ∧ t.mode = .waitingForKey ∧ t.DT.toNat = s.DT.toNat - 1 ∧ t.ST.toNat = s.ST.toNat - 1 := by
  cases (step_of_runs_finish hi rfl hi.1).symm.trans ht
  exact ⟨rfl, rfl, rfl, mode_eq_waitingForKey_iff.2 ⟨hi.1, rfl⟩, tickTimers_toNat _⟩

/-- A cycle of the wait with no key down is the start of a cycle and no more. -/
theorem step_of_waiting_without_key (hm : s.mode = .waitingForKey) (hnone : s.nextKeys = 0) : step s = .next (beginCycle s) := by
  obtain ⟨hrun, hwait⟩ := mode_eq_waitingForKey_iff.1 hm
  obtain ⟨hidle, -, -⟩ := waitCycleTakesTheLeastKey s hrun hwait
  exact hidle hnone

/-- A cycle of the wait with a key down: the least one goes to the waiting register, the wait ends, and `pc` and the timers stay. -/
theorem step_of_waiting_with_key (hm : s.mode = .waitingForKey) (hk : s.nextKeys.getLsbD k.toNat = true)
    (hbelow : ∀ j < k.toNat, s.nextKeys.getLsbD j = false) :
    ∃ u, step s = .next u ∧ u.getV s.waitReg = BitVec.ofNat 8 k.toNat ∧ u.pc = s.pc ∧ u.DT = s.DT ∧ u.ST = s.ST ∧ u.mode = .running := by
  obtain ⟨hrun, hwait⟩ := mode_eq_waitingForKey_iff.1 hm
  obtain ⟨-, hkey, -⟩ := waitCycleTakesTheLeastKey s hrun hwait
  obtain ⟨u, hu, hframe, hV⟩ := hkey k hk hbelow
  refine ⟨u, hu, (hV s.waitReg).trans (if_pos rfl), ?_⟩
  rw [hframe]
  exact ⟨rfl, rfl, rfl, mode_eq_running_iff.2 ⟨hrun, rfl⟩⟩

/-- Settles O56: the cycle of `Fx0A` ends waiting, and the next one is a cycle of the wait, with a key or without. -/
theorem keyWaitIsEntered : Obligations.KeyWaitIsEntered := by
  intro x s
  refine ⟨decodeOfEncodeIsTheInstruction (.ldVxK x) rfl, rfl, fun t hi ht => ?_⟩
  obtain ⟨hV, hpc, rfl, hm, hDT, hST⟩ := wait_entered hi ht
  exact ⟨hV, hpc, hm, hDT, hST, step_of_waiting_without_key hm, fun k => step_of_waiting_with_key hm⟩

/-! ## The moves between a register and a timer (R163 to R165) -/

/-- Settles O57: `Fx07` ends by writing one register, `Fx15` and `Fx18` by writing one timer. -/
theorem timerMovesCopy : Obligations.TimerMovesCopy := fun x _ =>
  ⟨decodeOfEncodeIsTheInstruction (.ldVxDt x) rfl, decodeOfEncodeIsTheInstruction (.ldDtVx x) rfl, decodeOfEncodeIsTheInstruction (.ldStVx x) rfl,
    exec_of_result rfl, rfl, rfl⟩

end Sys2Proof.Machine
end

section
/-! PROOFS. Faults and the states of the engine that last (60_exceptions.md): how a fault is taken, by an instruction and by a fetch, and the cycles that leave a Halted or a
waiting engine as it was. -/

namespace Sys2Proof.Machine

open Sys2Proof.Spec

variable {s : State} {op : Word}

/-! ## Taking a fault (R171 to R175, R180) -/

/-- A cycle whose instruction raises a fault records the fetched opcode and does no more than begin (R180). -/
theorem step_of_faultOf_ne_none (hi : runs s (decode op)) (hf : faultOf (decode op) (beginCycle s) ≠ .none) :
    step s = .next (enterHalted (faultOf (decode op) (beginCycle s)) op (beginCycle s)) := by
  obtain ⟨hencode, -⟩ := encodeOfDecodeIsTheOpcode op
  rw [step_of_runs hi, exec_of_faultOf_ne_none hf, endCycle_halted rfl, hencode]

/-- Settles O24: an instruction under a tabulated condition takes its fault, and after a fault the timers do not count down. -/
theorem faultsAreTakenAsTabulatedAndPrecise : Obligations.FaultsAreTakenAsTabulatedAndPrecise :=
  ⟨fun _ _ hf => exec_of_faultOf_ne_none hf,
    fun _ op hrun hwait hfetch hf => step_of_faultOf_ne_none ⟨hrun, hwait, op, hfetch, rfl⟩ hf,
    rfl, rfl, rfl, rfl, rfl⟩

/-- Settles O13: a Running cycle that fetches outside memory takes the fault of the fetch, and from `0xFFF` on it executes no instruction. -/
theorem fetchPastTheEndHalts : Obligations.FetchPastTheEndHalts := by
  intro s hrun hwait hpc
  obtain ⟨t, ht⟩ := step_next s
  obtain ⟨-, rfl⟩ | ⟨i, hi⟩ := running_cases hrun hwait ht
  · exact ⟨ht, rfl⟩
  · exact absurd (pc_lt_of_runs hi) (Nat.not_lt.2 hpc)

/-! ## Cycles that only begin (R82, R84, R181, R188) -/

/-- The starts of `k` cycles use up `k` supplied inputs, and leave everything of the engine but the key latch and `dirty` as it was (R83). -/
theorem iterate_beginCycle_eq (k : Nat) (s : State) :
    beginCycle^[k] s = { s with
      keypad := (beginCycle^[k] s).keypad, dirty := (beginCycle^[k] s).dirty
      rnd := (beginCycle^[k] s).rnd, pending := s.pending.drop k, cycles := s.cycles + k, loadOpen := (beginCycle^[k] s).loadOpen } := by
  induction k generalizing s with
  | zero => rfl
  | succ k ih =>
    rw [Function.iterate_succ_apply, ih (beginCycle s)]
    simp [beginCycle, Nat.add_assoc, Nat.add_comm 1]

/-- By induction on the cycles: each one only begins, and the machine is Halted after it (R82). -/
theorem run_of_halted (k : Nat) (h : s.halted = true) : Host.Core.run Sys2Proof.core k s = .next (beginCycle^[k] s) := by
  induction k generalizing s with
  | zero => rfl
  | succ k ih => exact (run_succ (step_of_halted h)).trans (ih (s := beginCycle s) h)

/-- By induction on the cycles: each one finds no key in the first input, and the machine goes on waiting (R84). -/
theorem run_of_waiting_without_keys {k : Nat} (hm : s.mode = .waitingForKey) (hk : k ≤ s.pending.length)
    (hkeys : ∀ input ∈ s.pending.take k, input.keys = 0) : Host.Core.run Sys2Proof.core k s = .next (beginCycle^[k] s) := by
  induction k generalizing s with
  | zero => rfl
  | succ k ih =>
    cases hp : s.pending with
    | nil => simp [hp] at hk
    | cons input rest =>
      rw [hp] at hk hkeys
      rw [List.take_succ_cons, List.forall_mem_cons] at hkeys
      obtain ⟨hnow, hlater⟩ := hkeys
      have hnone : s.nextKeys = 0 := by
        rw [State.nextKeys, hp]
        exact hnow
      have hrest : (beginCycle s).pending = rest := congrArg List.tail hp
      rw [run_succ (step_of_waiting_without_key hm hnone), Function.iterate_succ_apply]
      exact ih hm (hrest ▸ Nat.le_of_succ_le_succ hk) (hrest ▸ hlater)

/-- Settles O19: the cycles of a Halted machine only begin, and reset restores the fault elements with all others. -/
theorem haltedLastsUntilReset : Obligations.HaltedLastsUntilReset := by
  intro k s h
  have hframe := iterate_beginCycle_eq k s
  exact ⟨⟨_, run_of_halted k h, (congrArg State.halted hframe).trans h, by rw [hframe]⟩, rfl, rfl, rfl, rfl⟩

/-- Settles O20: the cycles of a wait with no key down only begin. -/
theorem waitLastsWhileNoKeyIsPressed : Obligations.WaitLastsWhileNoKeyIsPressed := by
  intro k s hrun hwait hk hkeys
  have hm : s.mode = .waitingForKey := mode_eq_waitingForKey_iff.2 ⟨hrun, hwait⟩
  exact ⟨_, run_of_waiting_without_keys hm hk hkeys, iterate_beginCycle_eq k s⟩

end Sys2Proof.Machine
end

section
/-! PROOFS. The first cycles after reset (70_reset_and_hazards.md R201): with a program its first two bytes are executed, without one the machine runs no-ops to the end of
memory. -/

namespace Sys2Proof.Machine

open Sys2Proof.Spec

variable {s t : State} {k : Nat}

/-! ## With a program -/

/-- Settles O3: the load has put the two bytes where `pc` is after reset. -/
theorem loadedProgramIsFetchedFirst : Obligations.LoadedProgramIsFetchedFirst := by
  intro hi lo rest t hload
  obtain ⟨hlen, -⟩ := loadProgram_ok hload
  obtain ⟨hfits, -⟩ := programLoadCopiesVerbatimOrIsRejected State.reset (hi :: lo :: rest) State.reset_mem_wf rfl
  obtain ⟨t', ht', hframe, hbytes, -⟩ := hfits hlen
  cases ht'.symm.trans hload
  have hpc : t.pc.toNat = 0x200 := congrArg (·.pc.toNat) hframe
  have hhi : Memory.read t.mem 0x200 = hi := hbytes 0 (by simp)
  have hlo : Memory.read t.mem (0x200 + 1) = lo := hbytes 1 (by simp)
  have hfetch : fetch t = some (BitVec.ofNat 16 (hi.toNat * 256 + lo.toNat)) := by
    rw [fetch_of_inside (by omega), hpc, hhi, hlo]
  exact step_of_runs ⟨congrArg State.halted hframe, congrArg State.waiting hframe, _, hfetch, rfl⟩

/-! ## Without a program -/

/-- The machine is Running above the font in the memory of reset, where every byte is 0 (R27, D18; log 4). -/
structure Blank (s : State) : Prop where
  running : s.halted = false
  notWaiting : s.waiting = false
  memory : s.mem = State.reset.mem
  aboveFont : 0x50 ≤ s.pc.toNat

theorem blank_reset : Blank State.reset := ⟨rfl, rfl, rfl, by decide⟩

/-- The opcode fetched from blank memory is `0000`, a no-op (R66, R90). -/
theorem Blank.runs_nop (h : Blank s) (hpc : s.pc.toNat + 1 ≤ 4095) : runs s (.nop 0x0000) := by
  refine ⟨h.running, h.notWaiting, 0x0000, ?_, by decide⟩
  rw [fetch_of_inside hpc, h.memory, read_reset_above h.aboveFont, read_reset_above (Nat.le_succ_of_le h.aboveFont)]
  rfl

/-- The state after a cycle that executes a no-op: the inputs taken, `pc` moved on, the timers counted down (R90). -/
def State.afterNop (s : State) : State := tickTimers (applyEffect .next (beginCycle s))

theorem step_of_runs_nop {op : Word} (h : runs s (.nop op)) : step s = .next s.afterNop :=
  step_of_runs_finish h rfl h.1

theorem afterNop_pc_toNat (hpc : s.pc.toNat + 1 ≤ 4095) : s.afterNop.pc.toNat = s.pc.toNat + 2 := by
  change (s.pc + 2).toNat = _
  bv_omega

theorem Blank.afterNop (h : Blank s) (hpc : s.pc.toNat + 1 ≤ 4095) : Blank s.afterNop :=
  ⟨h.running, h.notWaiting, h.memory, by rw [afterNop_pc_toNat hpc]; exact Nat.le_add_right_of_le h.aboveFont⟩

/-- By induction on the cycles, as long as `pc` stays inside memory: each one is a no-op that leaves memory blank. -/
theorem run_of_blank (h : Blank s) (hk : s.pc.toNat + 2 * k ≤ 0x1000) :
    ∃ t, Host.Core.run Sys2Proof.core k s = .next t ∧ Blank t ∧ t.pc.toNat = s.pc.toNat + 2 * k ∧ t.V = s.V ∧ t.fb = s.fb := by
  induction k generalizing s with
  | zero => exact ⟨s, rfl, h, rfl, rfl, rfl⟩
  | succ k ih =>
    have hin : s.pc.toNat + 1 ≤ 4095 := by omega
    have hpc : s.afterNop.pc.toNat = s.pc.toNat + 2 := afterNop_pc_toNat hin
    obtain ⟨t, ht, hblank, htpc, hV, hfb⟩ := ih (h.afterNop hin) (by omega)
    exact ⟨t, (run_succ (step_of_runs_nop (h.runs_nop hin))).trans ht, hblank, by omega, hV, hfb⟩

/-- A run goes on from where its first cycles end. -/
theorem run_add (j : Nat) (h : Host.Core.run Sys2Proof.core k s = .next t) :
    Host.Core.run Sys2Proof.core (k + j) s = Host.Core.run Sys2Proof.core j t := by
  induction k generalizing s with
  | zero =>
    cases h
    rw [Nat.zero_add]
  | succ k ih =>
    obtain ⟨u, hu⟩ := step_next s
    rw [run_succ hu] at h
    rw [Nat.succ_add, run_succ hu, ih h]

/-- With no program, `k` cycles after reset are `k` no-ops (R201). -/
theorem run_reset (hk : k ≤ 1792) : ∃ t, Host.Core.run Sys2Proof.core k State.reset = .next t ∧ Blank t ∧
    t.pc.toNat = 0x200 + 2 * k ∧ t.V = State.reset.V ∧ t.fb = State.reset.fb :=
  run_of_blank blank_reset (by change 0x200 + 2 * k ≤ 0x1000; omega)

/-- Settles O4: blank memory is no-ops up to its end, where the fetch takes its fault. -/
theorem noProgramRunsNoOpsThenHalts : Obligations.NoProgramRunsNoOpsThenHalts := by
  constructor
  · intro k hk
    obtain ⟨t, ht, hblank, hpc, hV, hfb⟩ := run_reset hk
    exact ⟨t, ht, hpc, hblank.running, hV, hblank.memory, hfb⟩
  · obtain ⟨t, ht, hblank, hpc, -⟩ := run_reset (Nat.le_refl 1792)
    have hend : t.pc = 0x1000 := BitVec.eq_of_toNat_eq hpc
    obtain ⟨hhalts, -⟩ := fetchPastTheEndHalts t hblank.running hblank.notWaiting (by omega)
    exact ⟨_, (run_add 1 ht).trans (run_succ hhalts), rfl, hend, rfl, hend, rfl⟩

end Sys2Proof.Machine
end
